-- ==== Sys2Proof/Word.lean ====
section
/-! DEFINITION. The machine's word types (spec/10_state.md R10, R11, R15; spec/00_scope.md R4). -/

namespace Sys2Proof

/-- The Word of R10: 16 bits, all arithmetic modulo 65536. Every register and memory cell holds one. -/
abbrev Word := BitVec 16

/-- Half a memory cell. The machine has no bytes (R33); only the model's memory list uses this type (log 4). -/
abbrev Byte := BitVec 8

/-- A cell address, already reduced modulo 8192 (R31), and the stored program counter (R15). -/
abbrev Addr := BitVec 13

/-- The number of a general register, 0 to 7 (R11). -/
abbrev RegIdx := Fin 8

end Sys2Proof
end

