-- ==== Sys2Proof/Syntax.lean ====
section
/-! DEFINITION. The instructions: one constructor for each row of spec/opcode_table.json
(spec/30_encoding.md R58 to R62). Operands stand in the order of their fields in the word (R52 to R54). -/

namespace Sys2Proof

/-- The ten function codes of class 0 that name no instruction (R60). -/
inductive InvalidFunc where
  | f5 | f6 | f7 | f9 | f10 | f11 | f12 | f13 | f14 | f15
deriving DecidableEq, Repr

/-- An instruction. Every operand type has exactly the values its field can encode, so no value of this
type is ill-formed; bits the spec says are ignored (R61, R140) are no operand. -/
inductive Instr where
  /-- `add $c,$a,$b` (R80). -/
  | add (rA rB rC : RegIdx)
  /-- `sub $c,$a,$b` (R81). -/
  | sub (rA rB rC : RegIdx)
  /-- `or $c,$a,$b` (R82). -/
  | or (rA rB rC : RegIdx)
  /-- `and $c,$a,$b` (R83). -/
  | and (rA rB rC : RegIdx)
  /-- `slt $c,$a,$b` (R84). -/
  | slt (rA rB rC : RegIdx)
  /-- `jr $a` (R97); bits [9:4] are ignored (R61). -/
  | jr (rA : RegIdx)
  /-- `addi $b,$a,imm` (R90). -/
  | addi (rA rB : RegIdx) (imm7 : BitVec 7)
  /-- `j target` (R95). -/
  | j (imm13 : Addr)
  /-- `jal target` (R96). -/
  | jal (imm13 : Addr)
  /-- `lw $b,imm($a)` (R106). -/
  | lw (rA rB : RegIdx) (imm7 : BitVec 7)
  /-- `sw $b,imm($a)` (R107). -/
  | sw (rA rB : RegIdx) (imm7 : BitVec 7)
  /-- `jeq $a,$b,rel` (R98). -/
  | jeq (rA rB : RegIdx) (imm7 : BitVec 7)
  /-- `slti $b,$a,imm` (R91). -/
  | slti (rA rB : RegIdx) (imm7 : BitVec 7)
  /-- Class 0, function code 5 (R140, R142). -/
  | invalidF5
  /-- Class 0, function code 6 (R140, R142). -/
  | invalidF6
  /-- Class 0, function code 7 (R140, R142). -/
  | invalidF7
  /-- Class 0, function code 9 (R140, R142). -/
  | invalidF9
  /-- Class 0, function code 10 (R140, R142). -/
  | invalidF10
  /-- Class 0, function code 11 (R140, R142). -/
  | invalidF11
  /-- Class 0, function code 12 (R140, R142). -/
  | invalidF12
  /-- Class 0, function code 13 (R140, R142). -/
  | invalidF13
  /-- Class 0, function code 14 (R140, R142). -/
  | invalidF14
  /-- Class 0, function code 15 (R140, R142). -/
  | invalidF15
deriving DecidableEq, Repr

end Sys2Proof
end

