-- ==== Sys2Proof/Config.lean ====
section
/-! DEFINITION. The parameters of the machine: the fixed ones of spec/00_scope.md R4 and the configuration
of R5. There is no free value here: no rule of the spec leaves a result undefined (R6). -/

namespace Sys2Proof.Config

/-- `MEM_CELLS` (R4): cells of the memory image. -/
def memCells : Nat := 8192

/-- `LINK_REG` (R4, R96): the register jump-and-link writes. -/
def linkReg : RegIdx := 7

/-- `RESET_PC` (R4, R25). -/
def resetPc : Addr := 0

end Sys2Proof.Config

namespace Sys2Proof

/-- `SIZE[k]`, `ASSOC[k]`, `BLOCK[k]` of one cache level (R5, R20). -/
structure Geometry where
  /-- Total capacity in cells. -/
  size : Nat
  /-- Lines per set. -/
  assoc : Nat
  /-- Block size in cells. -/
  block : Nat
deriving DecidableEq, Repr

/-- `ROWS[k]`, derived from the three stored values (R5, R20; log 16). -/
def Geometry.rows (g : Geometry) : Nat := g.size / (g.assoc * g.block)

/-- The `cfg` input's geometries: `NLEVELS` is 0, 1 or 2 (R5, R120). -/
inductive CacheConfig where
  | none
  | one (l1 : Geometry)
  | two (l1 l2 : Geometry)
deriving DecidableEq, Repr

/-- The configuration sampled at reset (R5, R162), less the memory image. -/
structure CoreConfig where
  /-- `NLEVELS` and the geometry of each level. -/
  cache : CacheConfig
  /-- `QUIRK_NOP_FUNCS` (R142): the unused function codes that run as a no-op. -/
  quirkNops : List InvalidFunc
deriving DecidableEq, Repr

/-- The configuration of `State.reset`: no cache level and the spec's default quirk set (R5; log 2). -/
def CoreConfig.default : CoreConfig := { cache := .none, quirkNops := [] }

end Sys2Proof
end

