-- ==== Sys2Proof/WellFormed.lean ====
section
/-! DEFINITION. Which configurations and images the block accepts (spec/46_cache_hierarchy.md R121;
spec/20_memory.md R42). An instruction needs no check: the operand types of Syntax.lean have exactly the
encodable values. The memory list's canonical form is `Machine.Memory.wf`. -/

namespace Sys2Proof

/-- R121: the three values are positive and the size is a multiple of associativity times block size. -/
def Geometry.legal (g : Geometry) : Bool :=
  decide (0 < g.size) && decide (0 < g.assoc) && decide (0 < g.block)
    && decide (g.size % (g.assoc * g.block) = 0)

/-- Every configured level is legal (R121). -/
def CacheConfig.legal : CacheConfig → Bool
  | .none => true
  | .one g1 => g1.legal
  | .two g1 g2 => g1.legal && g2.legal

/-- The configuration can be reset into (R121, R162). The quirk set is legal by its type (R5). -/
def CoreConfig.legal (c : CoreConfig) : Bool := c.cache.legal

/-- The image has at most one word for each cell (R36, R42). -/
def imageFits (image : List Word) : Bool := decide (image.length ≤ Config.memCells)

end Sys2Proof
end

