-- ==== Sys2Proof/Decode.lean ====
section
/-! DEFINITION. The decoder sub-block (spec/30_encoding.md): raw fields (R55), sign extension (R56), opcode
map (R58 to R60), operation descriptor (R62), control signals (R63); and the encoder (R64). The decoder is
total on all 65536 words: a word of class 0 with an unused function code decodes, by name, to that row's
instruction. -/

namespace Sys2Proof

/-- R56: bit 6 of the immediate fills bits 7 to 15. -/
def sext16 (imm7 : BitVec 7) : Word :=
  if imm7.getLsbD 6 then imm7.setWidth 16 ||| 0xFF80 else imm7.setWidth 16

/-- The raw fields the decoder extracts from every word, whatever its class (R55). -/
structure Fields where
  cls : BitVec 3
  rA : RegIdx
  rB : RegIdx
  rC : RegIdx
  func : BitVec 4
  imm7 : BitVec 7
  imm13 : Addr
  simm : Word
deriving DecidableEq, Repr

/-- R55. -/
def fields (w : Word) : Fields where
  cls := w.extractLsb' 13 3
  rA := (w.extractLsb' 10 3).toFin
  rB := (w.extractLsb' 7 3).toFin
  rC := (w.extractLsb' 4 3).toFin
  func := w.extractLsb' 0 4
  imm7 := w.extractLsb' 0 7
  imm13 := w.extractLsb' 0 13
  simm := sext16 (w.extractLsb' 0 7)

/-- The operation of the descriptor (R62). -/
inductive Op where
  | add | sub | or | and | slt | jr
  | invalid (f : InvalidFunc)
  | addi | j | jal | lw | sw | jeq | slti
deriving DecidableEq, Repr

/-- R59, R60: the operation of function codes 0 to 7, by the code's low three bits. -/
def funcOpLow (low : BitVec 3) : Op :=
  match (low.toFin : Fin 8) with
  | 0 => .add
  | 1 => .sub
  | 2 => .or
  | 3 => .and
  | 4 => .slt
  | 5 => .invalid .f5
  | 6 => .invalid .f6
  | 7 => .invalid .f7

/-- R59, R60: the operation of function codes 8 to 15, by the code's low three bits. -/
def funcOpHigh (low : BitVec 3) : Op :=
  match (low.toFin : Fin 8) with
  | 0 => .jr
  | 1 => .invalid .f9
  | 2 => .invalid .f10
  | 3 => .invalid .f11
  | 4 => .invalid .f12
  | 5 => .invalid .f13
  | 6 => .invalid .f14
  | 7 => .invalid .f15

/-- R59, R60: the operation a class-0 word's function code selects. -/
def funcOp (func : BitVec 4) : Op :=
  if func.getLsbD 3 then funcOpHigh (func.extractLsb' 0 3) else funcOpLow (func.extractLsb' 0 3)

/-- R58, R62: the opcode class selects the operation, class 0 by its function code. -/
def opOf (cls : BitVec 3) (func : BitVec 4) : Op :=
  match (cls.toFin : Fin 8) with
  | 0 => funcOp func
  | 1 => .addi
  | 2 => .j
  | 3 => .jal
  | 4 => .lw
  | 5 => .sw
  | 6 => .jeq
  | 7 => .slti

/-- The operation descriptor, the decoder's output port (R62). -/
structure Descriptor where
  op : Op
  rA : RegIdx
  rB : RegIdx
  rC : RegIdx
  func : BitVec 4
  simm : Word
  imm13 : Addr
deriving DecidableEq, Repr

/-- R62. -/
def describe (w : Word) : Descriptor :=
  let f := fields w
  { op := opOf f.cls f.func, rA := f.rA, rB := f.rB, rC := f.rC, func := f.func, simm := f.simm,
    imm13 := f.imm13 }

/-- The instruction of an unused function code. -/
def InvalidFunc.instr : InvalidFunc → Instr
  | .f5 => .invalidF5
  | .f6 => .invalidF6
  | .f7 => .invalidF7
  | .f9 => .invalidF9
  | .f10 => .invalidF10
  | .f11 => .invalidF11
  | .f12 => .invalidF12
  | .f13 => .invalidF13
  | .f14 => .invalidF14
  | .f15 => .invalidF15

/-- The 4-bit code of an unused function code (R60). -/
def InvalidFunc.code : InvalidFunc → BitVec 4
  | .f5 => 5
  | .f6 => 6
  | .f7 => 7
  | .f9 => 9
  | .f10 => 10
  | .f11 => 11
  | .f12 => 12
  | .f13 => 13
  | .f14 => 14
  | .f15 => 15

/-- The fields an operation uses, as its operands (R58, R59). -/
def Fields.instr (f : Fields) : Instr :=
  match opOf f.cls f.func with
  | .add => .add f.rA f.rB f.rC
  | .sub => .sub f.rA f.rB f.rC
  | .or => .or f.rA f.rB f.rC
  | .and => .and f.rA f.rB f.rC
  | .slt => .slt f.rA f.rB f.rC
  | .jr => .jr f.rA
  | .invalid g => g.instr
  | .addi => .addi f.rA f.rB f.imm7
  | .j => .j f.imm13
  | .jal => .jal f.imm13
  | .lw => .lw f.rA f.rB f.imm7
  | .sw => .sw f.rA f.rB f.imm7
  | .jeq => .jeq f.rA f.rB f.imm7
  | .slti => .slti f.rA f.rB f.imm7

/-- The decoder: total, with no state and no side effect (R50, R62). -/
def decode (w : Word) : Instr := (fields w).instr

/-- Format RRR with class 000 (R52). -/
def encodeRRR (rA rB rC : RegIdx) (func : BitVec 4) : Word :=
  0#3 ++ (BitVec.ofFin rA : BitVec 3) ++ (BitVec.ofFin rB : BitVec 3) ++ (BitVec.ofFin rC : BitVec 3) ++ func

/-- Format RRI (R53). -/
def encodeRRI (cls : BitVec 3) (rA rB : RegIdx) (imm7 : BitVec 7) : Word :=
  cls ++ (BitVec.ofFin rA : BitVec 3) ++ (BitVec.ofFin rB : BitVec 3) ++ imm7

/-- Format J (R54). -/
def encodeJ (cls : BitVec 3) (imm13 : Addr) : Word := cls ++ imm13

/-- The encoder (R58, R59, R64): ignored bits are written as zeros. -/
def encode : Instr → Word
  | .add rA rB rC => encodeRRR rA rB rC 0
  | .sub rA rB rC => encodeRRR rA rB rC 1
  | .or rA rB rC => encodeRRR rA rB rC 2
  | .and rA rB rC => encodeRRR rA rB rC 3
  | .slt rA rB rC => encodeRRR rA rB rC 4
  | .jr rA => encodeRRR rA 0 0 8
  | .addi rA rB imm7 => encodeRRI 1 rA rB imm7
  | .j imm13 => encodeJ 2 imm13
  | .jal imm13 => encodeJ 3 imm13
  | .lw rA rB imm7 => encodeRRI 4 rA rB imm7
  | .sw rA rB imm7 => encodeRRI 5 rA rB imm7
  | .jeq rA rB imm7 => encodeRRI 6 rA rB imm7
  | .slti rA rB imm7 => encodeRRI 7 rA rB imm7
  | .invalidF5 => encodeRRR 0 0 0 5
  | .invalidF6 => encodeRRR 0 0 0 6
  | .invalidF7 => encodeRRR 0 0 0 7
  | .invalidF9 => encodeRRR 0 0 0 9
  | .invalidF10 => encodeRRR 0 0 0 10
  | .invalidF11 => encodeRRR 0 0 0 11
  | .invalidF12 => encodeRRR 0 0 0 12
  | .invalidF13 => encodeRRR 0 0 0 13
  | .invalidF14 => encodeRRR 0 0 0 14
  | .invalidF15 => encodeRRR 0 0 0 15

/-- The operation of an instruction: its row of spec/opcode_table.json. -/
def Instr.op : Instr → Op
  | .add _ _ _ => .add
  | .sub _ _ _ => .sub
  | .or _ _ _ => .or
  | .and _ _ _ => .and
  | .slt _ _ _ => .slt
  | .jr _ => .jr
  | .addi _ _ _ => .addi
  | .j _ => .j
  | .jal _ => .jal
  | .lw _ _ _ => .lw
  | .sw _ _ _ => .sw
  | .jeq _ _ _ => .jeq
  | .slti _ _ _ => .slti
  | .invalidF5 => .invalid .f5
  | .invalidF6 => .invalid .f6
  | .invalidF7 => .invalid .f7
  | .invalidF9 => .invalid .f9
  | .invalidF10 => .invalid .f10
  | .invalidF11 => .invalid .f11
  | .invalidF12 => .invalid .f12
  | .invalidF13 => .invalid .f13
  | .invalidF14 => .invalid .f14
  | .invalidF15 => .invalid .f15

/-- The `mask` column of spec/opcode_table.json: the bits that select the row. -/
def Op.mask : Op → Word
  | .add | .sub | .or | .and | .slt | .jr | .invalid _ => 0xE00F
  | .addi | .j | .jal | .lw | .sw | .jeq | .slti => 0xE000

/-- The `match` column of spec/opcode_table.json. -/
def Op.pattern : Op → Word
  | .add => 0x0000
  | .sub => 0x0001
  | .or => 0x0002
  | .and => 0x0003
  | .slt => 0x0004
  | .jr => 0x0008
  | .addi => 0x2000
  | .j => 0x4000
  | .jal => 0x6000
  | .lw => 0x8000
  | .sw => 0xA000
  | .jeq => 0xC000
  | .slti => 0xE000
  | .invalid f => f.code.setWidth 16

/-- The bits of a word that its instruction reads: all, but for the don't-care bits of `jr` (R61) and the
register fields of an invalid word (R140). -/
def Op.usedBits : Op → Word
  | .jr => 0xFC0F
  | .invalid _ => 0xE00F
  | .add | .sub | .or | .and | .slt | .addi | .j | .jal | .lw | .sw | .jeq | .slti => 0xFFFF

/-- The memory column of R63. -/
inductive MemSignal where
  | none | read | write
deriving DecidableEq, Repr

/-- The cache column of R63. -/
inductive CacheSignal where
  | none | load | store
deriving DecidableEq, Repr

/-- The control signals of R63 that do not depend on register values. -/
structure Control where
  /-- The write index, where the operation writes a register. -/
  writes : Option RegIdx
  /-- The registers read (R14). -/
  reads : List RegIdx
  mem : MemSignal
  cache : CacheSignal
deriving DecidableEq, Repr

/-- R63 (and R14): what each instruction reads, writes and drives. -/
def controlSignals : Instr → Control
  | .add rA rB rC | .sub rA rB rC | .or rA rB rC | .and rA rB rC | .slt rA rB rC =>
    { writes := some rC, reads := [rA, rB], mem := .none, cache := .none }
  | .jr rA => { writes := none, reads := [rA], mem := .none, cache := .none }
  | .addi rA rB _ | .slti rA rB _ => { writes := some rB, reads := [rA], mem := .none, cache := .none }
  | .j _ => { writes := none, reads := [], mem := .none, cache := .none }
  | .jal _ => { writes := some Config.linkReg, reads := [], mem := .none, cache := .none }
  | .lw rA rB _ => { writes := some rB, reads := [rA], mem := .read, cache := .load }
  | .sw rA rB _ => { writes := none, reads := [rA, rB], mem := .write, cache := .store }
  | .jeq rA rB _ => { writes := none, reads := [rA, rB], mem := .none, cache := .none }
  | .invalidF5 | .invalidF6 | .invalidF7 | .invalidF9 | .invalidF10 | .invalidF11 | .invalidF12 | .invalidF13
  | .invalidF14 | .invalidF15 => { writes := none, reads := [], mem := .none, cache := .none }

/-- The instruction the decoder reads from a table word: an instruction is one 16-bit cell (R50), so the
bits above `nbits` are 0 and the whole instruction is one Word. -/
def decodeTableWord (nbits w : Nat) : Option Instr := some (decode (BitVec.ofNat 16 (w % 2 ^ nbits)))

end Sys2Proof
end

