-- ==== Sys2Proof/Machine/State.lean ====
section
/-! DEFINITION. The machine's state as plain data (spec/10_state.md), the outcomes of a step that are not a
next state, and the state after reset (R25). -/

namespace Sys2Proof.Machine

/-- The engine state `run` (R16). -/
inductive RunState where
  | running | halted | faulted
deriving DecidableEq, Repr

/-- The cause of a fault (R27, R141): one value. -/
inductive Cause where
  | invalidFunction
deriving DecidableEq, Repr

/-- The record `fault` of R144. -/
structure FaultRecord where
  cause : Cause
  /-- The offending function code, `w[3:0]` (R141). -/
  func : BitVec 4
  /-- The address of the offending instruction (R141). -/
  pc : Addr
deriving DecidableEq, Repr

/-- The general registers `x[1]` to `x[7]` (R11). `x[0]` is hard-wired and has no storage (R12, R13). -/
structure RegFile where
  r1 : Word
  r2 : Word
  r3 : Word
  r4 : Word
  r5 : Word
  r6 : Word
  r7 : Word
deriving DecidableEq, Repr

/-- The memory image (R17) as a list of byte cells in canonical form (`Memory.wf`): cell `a` is the bytes
`2a` and `2a+1` (log 4). -/
abbrev Memory := List Host.Cell

/-- A cache line (R21). `recency` has no width: it never wraps or saturates (D18). -/
structure Line where
  valid : Bool
  tag : Nat
  recency : Nat
deriving DecidableEq, Repr

/-- One cache level: its configuration registers (R20) and its arrays `cache[k][row][i]` (R22). -/
structure Level where
  geom : Geometry
  sets : List (List Line)
deriving DecidableEq, Repr

/-- The cache hierarchy: `NLEVELS` levels, 0, 1 or 2 (R22, R120). -/
inductive Hierarchy where
  | none
  | one (l1 : Level)
  | two (l1 l2 : Level)
deriving DecidableEq, Repr

/-- The `level` of an event record (R133). -/
inductive LevelName where
  | L1 | L2
deriving DecidableEq, Repr

/-- The `kind` of an event record (R133). -/
inductive EventKind where
  | hit | miss | sw
deriving DecidableEq, Repr

/-- An event record (R133): what the event output shows, never part of the state (R26). -/
structure Event where
  level : LevelName
  kind : EventKind
  /-- The address of the `lw` or `sw` (the issuing PC). -/
  pc : Addr
  /-- The reduced effective address (R132). -/
  addr : Addr
  /-- The set index at that level. -/
  row : Nat
deriving DecidableEq, Repr

/-- The whole state: `x, pc, run, fault, mem, cache` (R26), and the parameter `QUIRK_NOP_FUNCS` (log 1). The event
output is not state (R26): it is `State.stepEvents`, and the log of a run is `History`, outside the state. -/
structure State where
  x : RegFile
  /-- The program counter, stored reduced (R15). -/
  pc : Addr
  run : RunState
  /-- Present once the engine has faulted (R16). -/
  fault : Option FaultRecord
  mem : Memory
  /-- The cache levels with their configuration registers (R20 to R22); only `lw` and `sw` change the arrays,
  nothing changes a geometry. -/
  cache : Hierarchy
  /-- `QUIRK_NOP_FUNCS` (R5, R142); nothing changes it. -/
  quirkNops : List InvalidFunc
deriving DecidableEq, Repr

/-- Why a step can stop the machine with a fault: never. The spec's one exception, `InvalidFunction`, has an
entry the spec describes (R144) and is taken as a next state with `run = FAULTED`; nothing else faults (R143;
log 8). -/
inductive Fault where
deriving DecidableEq, Repr

/-- Why a step or a reset can be refused. -/
inductive Refusal where
  /-- Raised by `exec` alone, for an instruction that has no meaning yet (none is left). Safe. -/
  | notModelled (mnemonic : String)
  /-- Raised by `State.resetWith` and by `step` for a cache geometry that R121 calls illegal: no machine
  exists for it. Safe (log 9). -/
  | illegalConfiguration
  /-- Raised by `State.resetWith` for an image of more than 8192 words, which never reaches the block (R42).
  Safe (log 9). -/
  | imageTooLong
deriving DecidableEq, Repr

/-- Every register holds 0 after reset (R25). -/
def RegFile.zero : RegFile := { r1 := 0, r2 := 0, r3 := 0, r4 := 0, r5 := 0, r6 := 0, r7 := 0 }

/-- The machine right after reset (R25, R160, R161), under the default configuration and with `MEM_INIT` all
zero; `State.resetWith` is the reset under any configuration and image (log 2). -/
def State.reset : State where
  x := RegFile.zero
  pc := Config.resetPc
  run := .running
  fault := none
  mem := []
  cache := .none
  quirkNops := CoreConfig.default.quirkNops

end Sys2Proof.Machine
end

