-- ==== Sys2Proof/Machine/Ops.lean ====
section
/-! DEFINITION. The shared operations: registers (spec/10_state.md R12, R13), memory (spec/20_memory.md R31,
R32), the end of a step (spec/40_execution_step.md R74 to R76) and the entry of the one exception
(spec/60_exceptions.md R144). There is no return from an exception (R148). -/

namespace Sys2Proof.Machine

/-! ### Registers -/

/-- The read port: `x[0]` reads as zero (R12). -/
def RegFile.read (f : RegFile) : RegIdx → Word
  | 0 => 0
  | 1 => f.r1
  | 2 => f.r2
  | 3 => f.r3
  | 4 => f.r4
  | 5 => f.r5
  | 6 => f.r6
  | 7 => f.r7

/-- The write port: a write to `x[0]` is discarded (R13). -/
def RegFile.write (f : RegFile) (i : RegIdx) (v : Word) : RegFile :=
  match i with
  | 0 => f
  | 1 => { f with r1 := v }
  | 2 => { f with r2 := v }
  | 3 => { f with r3 := v }
  | 4 => { f with r4 := v }
  | 5 => { f with r5 := v }
  | 6 => { f with r6 := v }
  | 7 => { f with r7 := v }

/-- `x[i]`. -/
def State.reg (s : State) (i : RegIdx) : Word := s.x.read i

/-- `x[i] <- v`. -/
def State.writeReg (s : State) (i : RegIdx) (v : Word) : State := { s with x := s.x.write i v }

/-! ### Memory -/

/-- What a byte that the list does not hold reads as: a cell outside the image is 0 (R42; log 5). -/
def Memory.unlisted : Byte := 0

/-- The list's byte at a key. -/
def Memory.readByte : Memory → Nat → Byte
  | [], _ => Memory.unlisted
  | (a, b) :: m, k => if a = k then b else Memory.readByte m k

/-- Writes one byte and keeps the canonical form: a byte equal to the unlisted one is not stored. -/
def Memory.writeByte : Memory → Nat → Byte → Memory
  | [], k, v => if v = Memory.unlisted then [] else [(k, v)]
  | (a, b) :: m, k, v =>
    if k < a then (if v = Memory.unlisted then (a, b) :: m else (k, v) :: (a, b) :: m)
    else if k = a then (if v = Memory.unlisted then m else (k, v) :: m)
    else (a, b) :: Memory.writeByte m k v

/-- The keys lie in the address space (two bytes a cell), rise strictly from `lo` on, and no entry equals
the unlisted byte. -/
def Memory.wfFrom : Nat → Memory → Bool
  | _, [] => true
  | lo, (a, b) :: m =>
    decide (lo ≤ a) && decide (a < 2 * Config.memCells) && decide (b ≠ Memory.unlisted) && Memory.wfFrom (a + 1) m

/-- The canonical form of the memory list. -/
def Memory.wf (m : Memory) : Bool := Memory.wfFrom 0 m

/-- `MemRead(addr, 1)` (R32): the Word in a cell, low byte first in the list (log 4). -/
def memRead (m : Memory) (a : Addr) : Word :=
  m.readByte (2 * a.toNat + 1) ++ m.readByte (2 * a.toNat)

/-- `MemWrite(addr, 1, v)` (R32): replaces one cell. -/
def memWrite (m : Memory) (a : Addr) (v : Word) : Memory :=
  (m.writeByte (2 * a.toNat) (v.extractLsb' 0 8)).writeByte (2 * a.toNat + 1) (v.extractLsb' 8 8)

/-- `mem[a] <- v` on the state. -/
def State.storeCell (s : State) (a : Addr) (v : Word) : State := { s with mem := memWrite s.mem a v }

/-- The fetch (R71): the current content of the cell at `pc`; no cache access, no event. -/
def State.fetchWord (s : State) : Word := memRead s.mem s.pc

/-! ### The end of a step -/

/-- `pc + 1` as a Word, 1 to 8192: the default next-PC (R74) and the link value (R96). -/
def State.pcPlusOne (s : State) : Word := s.pc.setWidth 16 + 1

/-- The halt test and the pc update (R76): the next-PC is reduced modulo 8192; if it equals `pc` the engine
halts and `pc` keeps its value. -/
def State.endStep (s : State) (nextPc : Word) : State :=
  if nextPc.setWidth 13 = s.pc then { s with run := .halted } else { s with pc := nextPc.setWidth 13 }

/-- The end of a step with the default next-PC (R74). -/
def State.advance (s : State) : State := s.endStep s.pcPlusOne

/-! ### The exception -/

/-- The code of `fault.cause` (R141). -/
def Cause.code : Cause → Nat
  | .invalidFunction => 1

/-- Taking `InvalidFunction` (R78, R144): `run` and the fault record are written and nothing else changes,
not even `pc`. -/
def State.takeInvalidFunction (s : State) (f : InvalidFunc) : State :=
  { s with run := .faulted, fault := some { cause := .invalidFunction, func := f.code, pc := s.pc } }

end Sys2Proof.Machine
end

