-- ==== Sys2Proof/Machine/Flags.lean ====
section
/-! DEFINITION. The machine has no flags (spec/10_state.md R18): a comparison writes 0 or 1 into a register.
That one computation stands here. -/

namespace Sys2Proof.Machine

/-- The result of `slt` and `slti` (R84, R91): the unsigned comparison of two Words, as the Word 1 or 0. -/
def lessThan (a b : Word) : Word := if a.toNat < b.toNat then 1 else 0

end Sys2Proof.Machine
end

