-- ==== Sys2Proof/Machine/Operands.lean ====
section
/-! DEFINITION. The operand forms: effective address (spec/44_load_store.md R105) and the targets of the
control transfers (spec/43_control_transfer.md R95 to R98). A register operand is `State.reg`, an immediate
operand `sext16`. -/

namespace Sys2Proof.Machine

/-- R105: base plus sign-extended displacement, reduced modulo 8192. -/
def State.ea (s : State) (rA : RegIdx) (imm7 : BitVec 7) : Addr := (s.reg rA + sext16 imm7).setWidth 13

/-- R57, R95: the absolute target as a next-PC value. -/
def absTarget (imm13 : Addr) : Word := imm13.setWidth 16

/-- R97: bits [12:0] of a register as a next-PC value. -/
def regTarget (v : Word) : Word := v &&& 0x1FFF

/-- R98: the target of a taken branch, relative to the next instruction. -/
def State.branchTarget (s : State) (imm7 : BitVec 7) : Word := s.pcPlusOne + sext16 imm7

end Sys2Proof.Machine
end

