-- ==== Sys2Proof/Machine/AluImmediate.lean ====
section
/-! DEFINITION. Immediate arithmetic (spec/42_alu_immediate.md R90, R91). -/

namespace Sys2Proof.Machine

/-- R90. -/
def execAddi (rA rB : RegIdx) (imm7 : BitVec 7) (s : State) : Host.Outcome State Fault Refusal :=
  .next (s.writeReg rB (s.reg rA + sext16 imm7)).advance

/-- R91: the immediate is sign-extended and then compared unsigned. -/
def execSlti (rA rB : RegIdx) (imm7 : BitVec 7) (s : State) : Host.Outcome State Fault Refusal :=
  .next (s.writeReg rB (lessThan (s.reg rA) (sext16 imm7))).advance

end Sys2Proof.Machine
end

