-- ==== Sys2Proof/Machine/AluRegister.lean ====
section
/-! DEFINITION. Register-register arithmetic and logic (spec/41_alu_register.md R80 to R84). -/

namespace Sys2Proof.Machine

/-- Common to the five: the result goes to `x[rC]` and the step advances. -/
def aluRegister (rC : RegIdx) (result : Word) (s : State) : Host.Outcome State Fault Refusal :=
  .next (s.writeReg rC result).advance

/-- R80. -/
def execAdd (rA rB rC : RegIdx) (s : State) : Host.Outcome State Fault Refusal :=
  aluRegister rC (s.reg rA + s.reg rB) s

/-- R81: `x[rA]` minus `x[rB]`. -/
def execSub (rA rB rC : RegIdx) (s : State) : Host.Outcome State Fault Refusal :=
  aluRegister rC (s.reg rA - s.reg rB) s

/-- R82. -/
def execOr (rA rB rC : RegIdx) (s : State) : Host.Outcome State Fault Refusal :=
  aluRegister rC (s.reg rA ||| s.reg rB) s

/-- R83. -/
def execAnd (rA rB rC : RegIdx) (s : State) : Host.Outcome State Fault Refusal :=
  aluRegister rC (s.reg rA &&& s.reg rB) s

/-- R84: unsigned (D6; log 11). -/
def execSlt (rA rB rC : RegIdx) (s : State) : Host.Outcome State Fault Refusal :=
  aluRegister rC (lessThan (s.reg rA) (s.reg rB)) s

end Sys2Proof.Machine
end

