-- ==== Sys2Proof/Machine/ControlTransfer.lean ====
section
/-! DEFINITION. Control transfer (spec/43_control_transfer.md R95 to R98). Each yields a next-PC; the halt
test is `State.endStep` (R76). -/

namespace Sys2Proof.Machine

/-- R95. -/
def execJ (imm13 : Addr) (s : State) : Host.Outcome State Fault Refusal :=
  .next (s.endStep (absTarget imm13))

/-- R96: the link is written before the halt test (D13; log 12). -/
def execJal (imm13 : Addr) (s : State) : Host.Outcome State Fault Refusal :=
  .next ((s.writeReg Config.linkReg s.pcPlusOne).endStep (absTarget imm13))

/-- R97. -/
def execJr (rA : RegIdx) (s : State) : Host.Outcome State Fault Refusal :=
  .next (s.endStep (regTarget (s.reg rA)))

/-- R98. -/
def execJeq (rA rB : RegIdx) (imm7 : BitVec 7) (s : State) : Host.Outcome State Fault Refusal :=
  .next (s.endStep (if s.reg rA = s.reg rB then s.branchTarget imm7 else s.pcPlusOne))

end Sys2Proof.Machine
end

