-- ==== Sys2Proof/Machine/Invalid.lean ====
section
/-! DEFINITION. The ten words of class 0 with an unused function code (spec/60_exceptions.md R140 to R144). -/

namespace Sys2Proof.Machine

/-- R140, R142: the exception is taken, unless the function code is in `QUIRK_NOP_FUNCS`: then the word
writes nothing and the step advances. -/
def invalidFunction (f : InvalidFunc) (s : State) : Host.Outcome State Fault Refusal :=
  .next (if f ∈ s.quirkNops then s.advance else s.takeInvalidFunction f)

/-- Function code 5 (R140, R142). -/
def execInvalidF5 (s : State) : Host.Outcome State Fault Refusal := invalidFunction .f5 s

/-- Function code 6 (R140, R142). -/
def execInvalidF6 (s : State) : Host.Outcome State Fault Refusal := invalidFunction .f6 s

/-- Function code 7 (R140, R142). -/
def execInvalidF7 (s : State) : Host.Outcome State Fault Refusal := invalidFunction .f7 s

/-- Function code 9 (R140, R142). -/
def execInvalidF9 (s : State) : Host.Outcome State Fault Refusal := invalidFunction .f9 s

/-- Function code 10 (R140, R142). -/
def execInvalidF10 (s : State) : Host.Outcome State Fault Refusal := invalidFunction .f10 s

/-- Function code 11 (R140, R142). -/
def execInvalidF11 (s : State) : Host.Outcome State Fault Refusal := invalidFunction .f11 s

/-- Function code 12 (R140, R142). -/
def execInvalidF12 (s : State) : Host.Outcome State Fault Refusal := invalidFunction .f12 s

/-- Function code 13 (R140, R142). -/
def execInvalidF13 (s : State) : Host.Outcome State Fault Refusal := invalidFunction .f13 s

/-- Function code 14 (R140, R142). -/
def execInvalidF14 (s : State) : Host.Outcome State Fault Refusal := invalidFunction .f14 s

/-- Function code 15 (R140, R142). -/
def execInvalidF15 (s : State) : Host.Outcome State Fault Refusal := invalidFunction .f15 s

end Sys2Proof.Machine
end

