-- ==== Sys2Proof/Machine/Decomposer.lean ====
section
/-! DEFINITION. The address decomposer sub-block (spec/45_address_decomposer.md R110 to R113). -/

namespace Sys2Proof.Machine

/-- The outputs of the decomposer (R110). No rule reads `offset` (R113). -/
structure Decomposition where
  blk : Nat
  row : Nat
  tag : Nat
  offset : Nat
deriving DecidableEq, Repr

/-- R111 to R113: division and remainder by the block size and the row count. -/
def decompose (addr : Addr) (block rows : Nat) : Decomposition where
  blk := addr.toNat / block
  row := addr.toNat / block % rows
  tag := addr.toNat / block / rows
  offset := addr.toNat % block

/-- The decomposition at one level, by that level's geometry (R122). -/
def Level.split (l : Level) (addr : Addr) : Decomposition := decompose addr l.geom.block l.geom.rows

end Sys2Proof.Machine
end

