-- ==== Sys2Proof/Machine/Cache.lean ====
section
/-! DEFINITION. The cache hierarchy sub-block (spec/46_cache_hierarchy.md R120 to R139): operations on one
set, on one level, and the load and store resolutions over the levels with the events they emit. -/

namespace Sys2Proof.Machine

/-! ### One set -/

/-- R123: the lowest valid line that holds the tag. -/
def lookup (S : List Line) (tag : Nat) : Option Nat := S.findIdx? fun l => l.valid && l.tag == tag

/-- R124: the lowest line whose recency no line of the set, valid or not, exceeds. -/
def victim (S : List Line) : Nat := S.findIdx fun l => S.all fun m => decide (m.recency ≤ l.recency)

/-- R125: the line touched gets recency 0, every other line of the set one more. -/
def touch (S : List Line) (i : Nat) : List Line :=
  S.mapIdx fun j l => { l with recency := if j = i then 0 else l.recency + 1 }

/-- The miss arm of R126, which is the whole of R127: the victim takes the tag and is touched. -/
def installTag (S : List Line) (tag : Nat) : List Line :=
  touch (S.modify (victim S) fun l => { l with valid := true, tag := tag }) (victim S)

/-- R126 on one set: the result and the set after. -/
def loadSet (S : List Line) (tag : Nat) : EventKind × List Line :=
  match lookup S tag with
  | some i => (.hit, touch S i)
  | none => (.miss, installTag S tag)

/-! ### One level -/

/-- The set an address selects (R122). -/
def Level.setAt (l : Level) (row : Nat) : List Line := l.sets.getD row []

/-- A level with one set replaced; no other set changes (R125). -/
def Level.withSet (l : Level) (row : Nat) (S : List Line) : Level := { l with sets := l.sets.set row S }

/-- `resolveLoad(k, addr)` (R126): the result and the level after. -/
def Level.resolveLoad (l : Level) (addr : Addr) : EventKind × Level :=
  let d := l.split addr
  let r := loadSet (l.setAt d.row) d.tag
  (r.1, l.withSet d.row r.2)

/-- `resolveStore(k, addr)` (R127): the level after; no lookup is made (R129). -/
def Level.resolveStore (l : Level) (addr : Addr) : Level :=
  let d := l.split addr
  l.withSet d.row (installTag (l.setAt d.row) d.tag)

/-- One event record (R133). -/
def Level.event (l : Level) (name : LevelName) (kind : EventKind) (pc addr : Addr) : Event :=
  { level := name, kind := kind, pc := pc, addr := addr, row := (l.split addr).row }

/-! ### The hierarchy -/

/-- `CacheLoad(pc, addr)` (R130): L1 first, L2 only if L1 misses. -/
def Hierarchy.load (h : Hierarchy) (pc addr : Addr) : Hierarchy × List Event :=
  match h with
  | .none => (.none, [])
  | .one l1 =>
    let r1 := l1.resolveLoad addr
    (.one r1.2, [l1.event .L1 r1.1 pc addr])
  | .two l1 l2 =>
    let r1 := l1.resolveLoad addr
    if r1.1 = .miss then
      let r2 := l2.resolveLoad addr
      (.two r1.2 r2.2, [l1.event .L1 r1.1 pc addr, l2.event .L2 r2.1 pc addr])
    else (.two r1.2 l2, [l1.event .L1 r1.1 pc addr])

/-- `CacheStore(pc, addr)` (R131): every configured level, level 1 first (R134). -/
def Hierarchy.store (h : Hierarchy) (pc addr : Addr) : Hierarchy × List Event :=
  match h with
  | .none => (.none, [])
  | .one l1 => (.one (l1.resolveStore addr), [l1.event .L1 .sw pc addr])
  | .two l1 l2 =>
    (.two (l1.resolveStore addr) (l2.resolveStore addr), [l1.event .L1 .sw pc addr, l2.event .L2 .sw pc addr])

/-- `CacheLoad` on the state: only the arrays change (R130). -/
def State.cacheLoad (s : State) (addr : Addr) : State := { s with cache := (s.cache.load s.pc addr).1 }

/-- The records that `CacheLoad` emits, an output and no state (R130, R26). -/
def State.loadEvents (s : State) (addr : Addr) : List Event := (s.cache.load s.pc addr).2

/-- `CacheStore` on the state: only the arrays change (R131). -/
def State.cacheStore (s : State) (addr : Addr) : State := { s with cache := (s.cache.store s.pc addr).1 }

/-- The records that `CacheStore` emits, an output and no state (R131, R26). -/
def State.storeEvents (s : State) (addr : Addr) : List Event := (s.cache.store s.pc addr).2

/-! ### Reset and legality -/

/-- A line after reset (R25; the tag by D15). -/
def Line.reset : Line := { valid := false, tag := 0, recency := 0 }

/-- A level after reset: its arrays are sized from its geometry (R22, R162). -/
def Level.reset (g : Geometry) : Level :=
  { geom := g, sets := List.replicate g.rows (List.replicate g.assoc Line.reset) }

/-- The hierarchy a configuration creates (R120, R162). -/
def Hierarchy.reset : CacheConfig → Hierarchy
  | .none => .none
  | .one g1 => .one (Level.reset g1)
  | .two g1 g2 => .two (Level.reset g1) (Level.reset g2)

/-- The geometries a hierarchy holds (R20). -/
def Hierarchy.config : Hierarchy → CacheConfig
  | .none => .none
  | .one l1 => .one l1.geom
  | .two l1 l2 => .two l1.geom l2.geom

/-- `NLEVELS` (R20). -/
def Hierarchy.nlevels : Hierarchy → Nat
  | .none => 0
  | .one _ => 1
  | .two _ _ => 2

/-- The configured levels, L1 first. -/
def Hierarchy.levels : Hierarchy → List Level
  | .none => []
  | .one l1 => [l1]
  | .two l1 l2 => [l1, l2]

end Sys2Proof.Machine
end

