-- ==== Sys2Proof/Machine/LoadStore.lean ====
section
/-! DEFINITION. Loads and stores (spec/44_load_store.md R105 to R107). The order of the memory access and
the cache update inside the step is unobservable (R109). -/

namespace Sys2Proof.Machine

/-- R106: the hierarchy is queried also when `rB` is register 0 (D27; log 14); the records it emits are
`State.eventsOf`. -/
def execLw (rA rB : RegIdx) (imm7 : BitVec 7) (s : State) : Host.Outcome State Fault Refusal :=
  .next ((s.cacheLoad (s.ea rA imm7)).writeReg rB (memRead s.mem (s.ea rA imm7))).advance

/-- R107. -/
def execSw (rA rB : RegIdx) (imm7 : BitVec 7) (s : State) : Host.Outcome State Fault Refusal :=
  .next ((s.storeCell (s.ea rA imm7) (s.reg rB)).cacheStore (s.ea rA imm7)).advance

end Sys2Proof.Machine
end

