-- ==== Sys2Proof/Machine/Ports.lean ====
section
/-! DEFINITION. The outputs of the block (spec/00_scope.md R7): `event`, `status`, `observe`. None is state
(spec/10_state.md R26), and no step reads one (spec/46_cache_hierarchy.md R136). -/

namespace Sys2Proof.Machine

/-- The records one instruction emits when it executes in a state: those of its cache access, for `lw` also when
the destination is register 0 (R106, R107, R134; log 14). -/
def State.eventsOf (s : State) : Instr → List Event
  | .lw rA _ imm7 => s.loadEvents (s.ea rA imm7)
  | .sw rA _ imm7 => s.storeEvents (s.ea rA imm7)
  | .add _ _ _ | .sub _ _ _ | .or _ _ _ | .and _ _ _ | .slt _ _ _ | .jr _ | .addi _ _ _ | .j _ | .jal _
  | .jeq _ _ _ | .slti _ _ _ | .invalidF5 | .invalidF6 | .invalidF7 | .invalidF9 | .invalidF10 | .invalidF11
  | .invalidF12 | .invalidF13 | .invalidF14 | .invalidF15 => []

/-- The `event` output of the step from a state (R7, R8, R133): the records of the instruction that a running
engine with a legal configuration executes; none where no step is taken (R77, R121). -/
def State.stepEvents (s : State) : List Event :=
  match s.run with
  | .running => if s.cache.config.legal then s.eventsOf (decode s.fetchWord) else []
  | .halted => []
  | .faulted => []

/-- The `status` output (R7, R145): the engine state, and the fault record when it has faulted. -/
def State.status (s : State) : RunState × Option FaultRecord := (s.run, s.fault)

/-- What the `observe` output shows (R7, R153). -/
structure Observation where
  /-- The program counter, zero-extended to a Word (R15). -/
  pc : Word
  /-- `x[0]` to `x[7]`. -/
  regs : List Word
  /-- Cells 0 to 8191. -/
  cells : List Word
deriving DecidableEq, Repr

/-- The `observe` output, which the host reads once the run has ended, normally or by the fault (R153). -/
def State.observe (s : State) : Option Observation :=
  if s.run = .running then none
  else some {
    pc := s.pc.setWidth 16
    regs := (List.range 8).map fun i => s.reg (Fin.ofNat 8 i)
    cells := (List.range Config.memCells).map fun a => memRead s.mem (BitVec.ofNat 13 a) }

end Sys2Proof.Machine
end

