-- ==== Sys2Proof/Machine/Reset.lean ====
section
/-! DEFINITION. Reset under any configuration and image (spec/70_reset_and_hazards.md R160 to R165). -/

namespace Sys2Proof.Machine

/-- Places words at consecutive cells, the first at `a` (R36, R165). -/
def loadImage : Memory → Nat → List Word → Memory
  | m, _, [] => m
  | m, a, w :: ws => loadImage (memWrite m (BitVec.ofNat 13 a) w) (a + 1) ws

/-- The `reset` input with the `cfg` and `image` inputs (R7, R160, R162, R165): every piece of state gets its
reset value of R25, `MEM_INIT` being the image from cell 0 on and 0 elsewhere (R42). Nothing of an earlier
state survives, so none is an argument. An illegal configuration is refused (R121), and so is an image of more
than 8192 words, which the loader rejects before the block is reset (R42). -/
def State.resetWith (cfg : CoreConfig) (image : List Word) : Except Refusal State :=
  if cfg.legal = false then .error .illegalConfiguration
  else if imageFits image = false then .error .imageTooLong
  else .ok { State.reset with
    mem := loadImage [] 0 image, cache := Hierarchy.reset cfg.cache, quirkNops := cfg.quirkNops }

end Sys2Proof.Machine
end

