-- ==== Sys2Proof/Machine/Step.lean ====
section
/-! DEFINITION. The step of the engine (spec/40_execution_step.md R70 to R72, R77). -/

namespace Sys2Proof.Machine

/-- One step. A running engine fetches, decodes and executes one instruction (R70 to R72); a halted or
faulted one takes no step, so nothing changes (R77; log 7). A state whose cache geometry is illegal belongs to
no machine and is refused (R121; log 9). -/
def step (s : State) : Host.Outcome State Fault Refusal :=
  match s.run with
  | .running => if s.cache.config.legal then exec (decode s.fetchWord) s else .refused .illegalConfiguration
  | .halted => .next s
  | .faulted => .next s

/-- The state with an instruction word placed in the cell at `pc`, where the next step of a running engine
fetches (R71): the image load of one cell (log 3). -/
def State.withFetchWord (s : State) (nbits w : Nat) : State :=
  s.storeCell s.pc (BitVec.ofNat 16 (w % 2 ^ nbits))

end Sys2Proof.Machine
end

