-- ==== Sys2Proof/Machine/History.lean ====
section
/-! DEFINITION. The event log of a run (spec/10_state.md R26): the concatenation of the per-step outputs, kept as a
history outside the machine state (log 6). -/

namespace Sys2Proof.Machine

/-- A machine state beside the records emitted on the way to it, oldest first. -/
structure History where
  state : State
  log : List Event
deriving DecidableEq, Repr

/-- One step of the machine, its event output appended to the log. -/
def History.step (h : History) : Host.Outcome History Fault Refusal :=
  match Sys2Proof.Machine.step h.state with
  | .next t => .next { state := t, log := h.log ++ h.state.stepEvents }
  | .fault r => .fault r
  | .refused r => .refused r

/-- `n` steps, stopping at the first fault or refusal. -/
def History.run : Nat → History → Host.Outcome History Fault Refusal
  | 0, h => .next h
  | n + 1, h =>
    match h.step with
    | .next h' => History.run n h'
    | .fault r => .fault r
    | .refused r => .refused r

end Sys2Proof.Machine
end

