-- ==== Sys2Proof/Safety.lean ====
section
/-! DEFINITION. What counts as a good state and a good run, in the terms the statements use
(spec/60_exceptions.md R155; spec/10_state.md R24). -/

namespace Sys2Proof.Machine

/-! ### How a run can end (R155) -/

/-- The program executed a self-referential transfer: the only normal end. -/
def State.endedNormally (s : State) : Prop := s.run = .halted

/-- The run was aborted by the fatal condition: never a normal end (R144). -/
def State.aborted (s : State) : Prop := s.run = .faulted

/-- A running engine with a legal configuration: one that has a next step. -/
def State.canStep (s : State) : Prop := s.run = .running ∧ s.cache.config.legal = true

/-- When an instruction at `s.pc` is a transfer to its own address (the table of R79). -/
def State.selfTransfer (s : State) : Instr → Prop
  | .j target => target = s.pc
  | .jal target => target = s.pc
  | .jr rA => (s.reg rA).toNat % 8192 = s.pc.toNat
  | .jeq rA rB imm7 => s.reg rA = s.reg rB ∧ imm7.toInt = -1
  | _ => False

/-! ### Invariants -/

/-- A level's configuration is legal and its arrays have the shape the configuration gives (R22, R121). -/
def Level.Shaped (l : Level) : Prop :=
  l.geom.legal = true ∧ l.sets.length = l.geom.rows ∧ ∀ S ∈ l.sets, S.length = l.geom.assoc

/-- Every level is shaped. -/
def Hierarchy.Shaped (h : Hierarchy) : Prop := ∀ l ∈ h.levels, l.Shaped

/-- The fault record is present exactly in FAULTED (R16), and then it names the invalid word at `pc` (R141),
whose code is not in the quirk set (R27). -/
def State.FaultConsistent (s : State) : Prop :=
  (s.run ≠ .faulted → s.fault = none) ∧
  (s.run = .faulted → ∃ f : InvalidFunc, f ∉ s.quirkNops ∧ decode s.fetchWord = f.instr ∧
    s.fault = some { cause := .invalidFunction, func := f.code, pc := s.pc })

/-- In HALTED the instruction at `pc` is a transfer to itself (R76, R79). -/
def State.HaltConsistent (s : State) : Prop :=
  s.run = .halted → s.selfTransfer (decode s.fetchWord)

/-- The invariant of every reachable state. -/
structure State.Inv (s : State) : Prop where
  memory : s.mem.wf = true
  shaped : s.cache.Shaped
  fault : s.FaultConsistent
  halt : s.HaltConsistent

/-- R24 (a) to (e) for one set that has been accessed `n` times: every invalid line has recency `n`; every
valid line less; valid lines have different recencies; the invalid lines are the last ones; and once accessed,
exactly one line has recency 0. -/
structure RecencyInv (n : Nat) (S : List Line) : Prop where
  invalid : ∀ l ∈ S, l.valid = false → l.recency = n
  valid : ∀ l ∈ S, l.valid = true → l.recency < n
  different : S.Pairwise fun a b => a.valid = true → b.valid = true → a.recency ≠ b.recency
  suffix : S.Pairwise fun a b => a.valid = false → b.valid = false
  latest : 0 < n → S.countP (fun l => l.recency == 0) = 1

/-- R24 for every set of every level, each with its own number of accesses. -/
def Hierarchy.RecencyInv (h : Hierarchy) : Prop :=
  ∀ l ∈ h.levels, ∀ S ∈ l.sets, ∃ n, Machine.RecencyInv n S

/-- At most one line of a set holds a given tag as valid (the invariant R24 says only loads keep). -/
def uniqueTags (S : List Line) : Prop :=
  S.Pairwise fun a b => a.valid = true → b.valid = true → a.tag ≠ b.tag

/-- `uniqueTags` of every set of every level. -/
def Hierarchy.UniqueTags (h : Hierarchy) : Prop := ∀ l ∈ h.levels, ∀ S ∈ l.sets, uniqueTags S

/-- The two states agree on everything but the cache: `{x, pc, run, fault, mem}` (R40) and
the quirk parameter. -/
structure SameArchitecture (s t : State) : Prop where
  x : s.x = t.x
  pc : s.pc = t.pc
  run : s.run = t.run
  fault : s.fault = t.fault
  mem : s.mem = t.mem
  quirkNops : s.quirkNops = t.quirkNops

/-! ### What an instruction changes and leaves -/

/-- Register `d` holds `v` afterwards, or still 0 if it is register 0 (R13); no other register changed. -/
def RegUpdate (s t : State) (d : RegIdx) (v : Word) : Prop :=
  t.reg d = (if d = 0 then 0 else v) ∧ ∀ r, r ≠ d → t.reg r = s.reg r

/-- No register changed. -/
def SameRegs (s t : State) : Prop := ∀ r, t.reg r = s.reg r

/-- Every byte of the memory list reads as before. -/
def SameMemory (s t : State) : Prop := ∀ k : Nat, t.mem.readByte k = s.mem.readByte k

/-- Every byte reads as before but for the two bytes of one cell. -/
def SameMemoryBut (s t : State) (a : Addr) : Prop :=
  ∀ k : Nat, k ≠ 2 * a.toNat → k ≠ 2 * a.toNat + 1 → t.mem.readByte k = s.mem.readByte k

/-- Neither the arrays nor the geometry of the cache changed. -/
def SameCache (s t : State) : Prop := t.cache = s.cache

/-- The instruction emits no record in the state (R134). -/
def NoEvents (i : Instr) (s : State) : Prop := s.eventsOf i = []

/-- Neither the fault record nor the quirk parameter changed. -/
def SameControl (s t : State) : Prop := t.fault = s.fault ∧ t.quirkNops = s.quirkNops

/-- The step ended with the next instruction in sequence (R74, R76): it did not halt. -/
def EndsInSequence (s t : State) : Prop := t.pc.toNat = (s.pc.toNat + 1) % 8192 ∧ t.run = s.run

/-- The step ended with next-PC `target` (reduced, R76): halted if that is the step's own address. -/
def EndsAt (s t : State) (target : Nat) : Prop :=
  if target = s.pc.toNat then t.pc = s.pc ∧ t.run = .halted else t.pc.toNat = target ∧ t.run = s.run

/-! ### Words by their fields -/

/-- A class-0 word by its fields, as the number its bits make (R52). -/
def wordRRR (rA rB rC : RegIdx) (func : Nat) : Word :=
  BitVec.ofNat 16 (rA.val * 1024 + rB.val * 128 + rC.val * 16 + func)

/-- A word of format RRI by its fields, as the number its bits make (R53). -/
def wordRRI (cls : Nat) (rA rB : RegIdx) (imm7 : BitVec 7) : Word :=
  BitVec.ofNat 16 (cls * 8192 + rA.val * 1024 + rB.val * 128 + imm7.toNat)

/-- A word of format J by its fields, as the number its bits make (R54). -/
def wordJ (cls : Nat) (imm13 : Addr) : Word := BitVec.ofNat 16 (cls * 8192 + imm13.toNat)

/-! ### One set of a cache level -/

/-- `i` is the lowest valid line that holds the tag (R123). -/
def LowestMatch (S : List Line) (tag i : Nat) : Prop :=
  (∃ l, S[i]? = some l ∧ l.valid = true ∧ l.tag = tag) ∧
  ∀ j l, j < i → S[j]? = some l → ¬ (l.valid = true ∧ l.tag = tag)

/-- `v` is the lowest line whose recency is the largest of the set (R124). -/
def LowestOldest (S : List Line) (v : Nat) : Prop :=
  ∃ l, S[v]? = some l ∧ (∀ m ∈ S, m.recency ≤ l.recency) ∧ ∀ j m, j < v → S[j]? = some m → m.recency < l.recency

/-- `S'` is `S` after a touch of line `i` and nothing else (R125). -/
def TouchedAt (S S' : List Line) (i : Nat) : Prop :=
  ∀ j, S'[j]? = (S[j]?).map fun (l : Line) => { l with recency := if j = i then 0 else l.recency + 1 }

/-- `S'` is `S` after the tag is installed in line `v`, valid, and that line touched (R126, R127). -/
def InstalledAt (S S' : List Line) (v tag : Nat) : Prop :=
  ∀ j, S'[j]? = (S[j]?).map fun (l : Line) =>
    if j = v then { valid := true, tag := tag, recency := 0 } else { l with recency := l.recency + 1 }

/-- The row of an address at a level, as R111 computes it. -/
def Level.rowOf (l : Level) (a : Addr) : Nat := a.toNat / l.geom.block % l.geom.rows

/-- The tag of an address at a level, as R112 computes it. -/
def Level.tagOf (l : Level) (a : Addr) : Nat := a.toNat / l.geom.block / l.geom.rows

/-- `l'` is `l` with one set replaced and nothing else changed (R125, R137). -/
def OneSetReplaced (l l' : Level) (row : Nat) (S' : List Line) : Prop :=
  l'.geom = l.geom ∧ l'.sets[row]? = some S' ∧ ∀ r, r ≠ row → l'.sets[r]? = l.sets[r]?

/-- The record a resolution of a level emits (R133). -/
def record (l : Level) (name : LevelName) (kind : EventKind) (pc addr : Addr) : Event :=
  { level := name, kind := kind, pc := pc, addr := addr, row := l.rowOf addr }

/-- The instruction is neither a load nor a store. -/
def noMemoryAccess (i : Instr) : Prop :=
  (∀ a b imm, i ≠ .lw a b imm) ∧ ∀ a b imm, i ≠ .sw a b imm

end Sys2Proof.Machine
end

