-- ==== Sys2Proof/Certificates/Slice0/Obligations.lean ====
section
/-! DEFINITION. The statements for the provers. Every clause is about the machine as spec/ gives it; a clause
that rests on a choice of the model says so and names the log entry. -/

open Sys2Proof Sys2Proof.Machine

/-! ### Decoder -/

/-- R52 to R54, R58, R59: no operand bit is dropped between the encoder and the decoder. -/
def Obligations.DecodeInvertsEncode : Prop := ∀ i : Instr, decode (encode i) = i

/-- The other direction: encoding a decoded word gives the word back, but for the bits R61 and R140 say are
ignored, which the encoder writes as zeros (log 17). -/
def Obligations.EncodeOfDecodeKeepsUsedBits : Prop :=
  ∀ w : Word, encode (decode w) = w &&& (decode w).op.usedBits

/-- The mask and match columns of spec/opcode_table.json: a word lies in a row exactly if it decodes to that
row's instruction, so the 23 rows partition the 65536 words. -/
def Obligations.TableRowsPartitionTheWords : Prop :=
  ∀ (w : Word) (o : Op), w &&& o.mask = o.pattern ↔ (decode w).op = o

/-- R60: a word is invalid exactly when its class is 0 and its function code is one of the ten. -/
def Obligations.InvalidWordsAreTheTenCodes : Prop :=
  ∀ w : Word, (∃ f : InvalidFunc, decode w = f.instr) ↔
    w.toNat / 8192 = 0 ∧ w.toNat % 16 ∈ [5, 6, 7, 9, 10, 11, 12, 13, 14, 15]

/-- R55, with R56's value for `simm`: every field of every word, as a slice of the word's number. -/
def Obligations.RawFieldsAreSlicesOfTheWord : Prop :=
  ∀ w : Word, (fields w).cls.toNat = w.toNat / 8192 ∧ (fields w).rA.val = w.toNat / 1024 % 8 ∧
    (fields w).rB.val = w.toNat / 128 % 8 ∧ (fields w).rC.val = w.toNat / 16 % 8 ∧
    (fields w).func.toNat = w.toNat % 16 ∧ (fields w).imm7.toNat = w.toNat % 128 ∧
    (fields w).imm13.toNat = w.toNat % 8192 ∧ (fields w).simm = BitVec.ofInt 16 (fields w).imm7.toInt

/-- R62: the descriptor holds the operation of the decoded instruction and the raw fields. -/
def Obligations.DescriptorHoldsOpAndFields : Prop :=
  ∀ w : Word, (describe w).op = (decode w).op ∧ (describe w).rA = (fields w).rA ∧
    (describe w).rB = (fields w).rB ∧ (describe w).rC = (fields w).rC ∧ (describe w).func = (fields w).func ∧
    (describe w).simm = (fields w).simm ∧ (describe w).imm13 = (fields w).imm13

/-- R56: the two cases of the sign extension, and the result read as two's complement. -/
def Obligations.SignExtensionFillsFromBitSix : Prop :=
  ∀ i : BitVec 7, (sext16 i).toNat = (if i.toNat < 64 then i.toNat else i.toNat + 65408) ∧
    (sext16 i).toInt = i.toInt

/-- Words written out bit by bit from R52 to R54 and R58, R59 decode to the instructions they stand for. -/
def Obligations.WordsWrittenOutDecode : Prop :=
  decode 0b0000010100110000 = .add 1 2 3 ∧ decode 0b0000010100110001 = .sub 1 2 3 ∧
  decode 0b0000010100110010 = .or 1 2 3 ∧ decode 0b0000010100110011 = .and 1 2 3 ∧
  decode 0b0000010100110100 = .slt 1 2 3 ∧ decode 0b0001111111111000 = .jr 7 ∧
  decode 0b0010010011111111 = .addi 1 1 127 ∧ decode 0b0101111111111111 = .j 8191 ∧
  decode 0b0110000000001010 = .jal 10 ∧ decode 0b1000010100000100 = .lw 1 2 4 ∧
  decode 0b1010010101111111 = .sw 1 2 127 ∧ decode 0b1100010100000010 = .jeq 1 2 2 ∧
  decode 0b1110010100001010 = .slti 1 2 10 ∧ decode 0b0000010100110111 = .invalidF7

/-! ### The step -/

/-- R70 to R72: a running engine executes the instruction in the cell at `pc`. Nothing is added around `exec`:
the pc update and the halt test of R76 are part of each instruction's meaning; the step's event output is that
instruction's. -/
def Obligations.StepRunsTheDecodedInstruction : Prop :=
  ∀ (s : State) (i : Instr), s.run = .running → s.cache.config.legal = true →
    decode (memRead s.mem s.pc) = i → step s = exec i s ∧ s.stepEvents = s.eventsOf i

/-- R77: in HALTED and FAULTED nothing changes and no event is emitted. That a step there answers the same state is the model's choice
(log 7). -/
def Obligations.TerminalStatesNeverChange : Prop :=
  ∀ s : State, s.run = .halted ∨ s.run = .faulted → step s = .next s ∧ s.stepEvents = []

/-- R121: which geometries are legal, what the row count is then, and that an illegal one has no reset state
and no step. -/
def Obligations.IllegalGeometryIsRefused : Prop :=
  (∀ g : Geometry, g.legal = true ↔ 0 < g.size ∧ 0 < g.assoc ∧ 0 < g.block ∧ g.assoc * g.block ∣ g.size) ∧
  (∀ g : Geometry, g.legal = true → 1 ≤ g.rows ∧ g.rows * (g.assoc * g.block) = g.size) ∧
  (∀ (cfg : CoreConfig) (image : List Word), cfg.cache.legal = false →
    State.resetWith cfg image = .error .illegalConfiguration) ∧
  ∀ s : State, s.run = .running → s.cache.config.legal = false → step s = .refused .illegalConfiguration

/-- R155, R143: a running engine always has a next step: fetch, decode and every instruction rule are total. -/
def Obligations.RunningEngineHasANextStep : Prop :=
  ∀ s : State, s.run = .running → s.cache.config.legal = true → ∃ t, step s = .next t

/-- R25: every value the spec gives for reset, for every legal configuration and every image of at most 8192
words (a `MEM_INIT` is such an image, R42). -/
def Obligations.ResetGivesTheResetValues : Prop :=
  ∀ (cfg : CoreConfig) (image : List Word), cfg.cache.legal = true → image.length ≤ 8192 →
    ∃ t, State.resetWith cfg image = .ok t ∧ t.pc = 0 ∧ (∀ r, t.reg r = 0) ∧ t.run = .running ∧
      t.fault = none ∧ (∀ a : Addr, memRead t.mem a = image.getD a.toNat 0) ∧ t.cache.config = cfg.cache ∧
      t.quirkNops = cfg.quirkNops ∧
      ∀ l ∈ t.cache.levels, l.sets.length = l.geom.rows ∧
        ∀ S ∈ l.sets, S.length = l.geom.assoc ∧ ∀ x ∈ S, x = { valid := false, tag := 0, recency := 0 }

/-- The model's choice of the state after reset (log 2): the default configuration and no image; and that state
satisfies the invariant. -/
def Obligations.DefaultResetSatisfiesTheInvariant : Prop :=
  State.resetWith CoreConfig.default [] = .ok State.reset ∧ State.reset.cache = .none ∧
    State.reset.quirkNops = [] ∧ State.reset.Inv

/-- Every reset state, whatever the configuration and the image, satisfies the three invariants. -/
def Obligations.EveryResetSatisfiesTheInvariants : Prop :=
  ∀ (cfg : CoreConfig) (image : List Word) (t : State), State.resetWith cfg image = .ok t →
    t.Inv ∧ t.cache.RecencyInv ∧ t.cache.UniqueTags

/-- `Inv` is kept by every step from every state: the memory list stays canonical; the arrays keep the shape of
a legal configuration; FAULTED holds exactly with a record that names the invalid word at `pc` (R16, R141);
HALTED holds only at an instruction that transfers to itself (R76, R79). -/
def Obligations.EveryStepKeepsTheInvariant : Prop :=
  ∀ s t : State, s.Inv → step s = .next t → t.Inv

/-- R24 (a) to (e) is kept by every step. -/
def Obligations.EveryStepKeepsTheRecencyInvariant : Prop :=
  ∀ s t : State, s.cache.Shaped → s.cache.RecencyInv → step s = .next t → t.cache.RecencyInv

/-- R24, last sentence: without a store, a set holds a tag in at most one valid line. -/
def Obligations.StepsOtherThanStoresKeepTagsUnique : Prop :=
  ∀ s t : State, s.cache.UniqueTags → (∀ a b imm, decode s.fetchWord ≠ .sw a b imm) → step s = .next t →
    t.cache.UniqueTags

/-- R129 (a), conflict C1: a step that executes a store can break that invariant. -/
def Obligations.AStoreCanDuplicateATag : Prop :=
  ∃ (s t : State) (a b : RegIdx) (imm7 : BitVec 7), s.Inv ∧ s.cache.RecencyInv ∧ s.cache.UniqueTags ∧
    s.run = .running ∧ decode s.fetchWord = .sw a b imm7 ∧ step s = .next t ∧ ¬ t.cache.UniqueTags

/-- R20, R26: no step changes the configuration registers or the quirk parameter (held in the state: log 1). -/
def Obligations.ConfigurationNeverChanges : Prop :=
  ∀ s t : State, step s = .next t → t.cache.config = s.cache.config ∧ t.quirkNops = s.quirkNops

/-- R40: no register, memory, pc, run or fault value depends on the cache: from states that agree on these,
whatever their caches, a step leads to states that agree on them. -/
def Obligations.CacheNeverAffectsTheArchitecture : Prop :=
  ∀ s s' t t' : State, SameArchitecture s s' → step s = .next t → step s' = .next t' → SameArchitecture t t'

/-- R40 over runs: two legal configurations and one image give runs of any length, never refused, that agree on
`{x, pc, run, fault, mem}` after every number of steps. That the steps after the end of a run answer next, with the
state unchanged, is the model's choice (log 7). -/
def Obligations.RunsAgreeUnderEveryConfiguration : Prop :=
  ∀ (cfg cfg' : CoreConfig) (image : List Word) (s s' : State) (n : Nat), cfg.quirkNops = cfg'.quirkNops →
    State.resetWith cfg image = .ok s → State.resetWith cfg' image = .ok s' →
    ∃ t t', Sys2Proof.core.run n s = .next t ∧ Sys2Proof.core.run n s' = .next t' ∧ SameArchitecture t t'

/-- R136, R26: nothing reads an event back. The history of a run (kept outside the state, log 6) passes through the
states the machine passes through without it, whatever its log held before, and appends to it the same records:
after one step the step's event output. That steps past the end of a run answer next is the model's choice (log 7). -/
def Obligations.EventOutputIsWriteOnly : Prop :=
  (∀ (s t : State) (log : List Event), step s = .next t →
    History.step { state := s, log := log } = .next { state := t, log := log ++ s.stepEvents }) ∧
  ∀ (n : Nat) (s t : State), Sys2Proof.core.run n s = .next t → ∃ new : List Event, ∀ log : List Event,
    History.run n { state := s, log := log } = .next { state := t, log := log ++ new }

/-- R134, with the record of R133: the number, order and content of the events of each instruction. A step that
faults or halts executes no load or store, so the first clause covers it. The order on a store follows the spec's
decision D23 (log 15). -/
def Obligations.EventsFollowTheTable : Prop :=
  ∀ (i : Instr) (s : State),
    (noMemoryAccess i → s.eventsOf i = []) ∧
    (s.cache = .none → s.eventsOf i = []) ∧
    (∀ a b imm, i = .lw a b imm → ∀ l1, s.cache = .one l1 →
      ∃ k, (k = .hit ∨ k = .miss) ∧ s.eventsOf i = [record l1 .L1 k s.pc (s.ea a imm)]) ∧
    (∀ a b imm, i = .lw a b imm → ∀ l1 l2, s.cache = .two l1 l2 →
      s.eventsOf i = [record l1 .L1 .hit s.pc (s.ea a imm)] ∨
      ∃ k, (k = .hit ∨ k = .miss) ∧
        s.eventsOf i = [record l1 .L1 .miss s.pc (s.ea a imm), record l2 .L2 k s.pc (s.ea a imm)]) ∧
    (∀ a b imm, i = .sw a b imm → ∀ l1, s.cache = .one l1 →
      s.eventsOf i = [record l1 .L1 .sw s.pc (s.ea a imm)]) ∧
    (∀ a b imm, i = .sw a b imm → ∀ l1 l2, s.cache = .two l1 l2 →
      s.eventsOf i = [record l1 .L1 .sw s.pc (s.ea a imm), record l2 .L2 .sw s.pc (s.ea a imm)])

/-- R78: the faulting step sets `run` and the fault record, makes no other change and emits no event. -/
def Obligations.FaultingStepChangesNothingElse : Prop :=
  ∀ (s : State) (f : InvalidFunc), s.run = .running → s.cache.config.legal = true →
    s.fetchWord.toNat / 8192 = 0 → s.fetchWord.toNat % 16 = f.code.toNat → f ∉ s.quirkNops →
    step s = .next { s with
      run := .faulted, fault := some { cause := .invalidFunction, func := f.code, pc := s.pc } } ∧
    s.stepEvents = []

/-- R79: which instructions halt, and when. -/
def Obligations.HaltsExactlyOnASelfTransfer : Prop :=
  ∀ s t : State, s.run = .running → step s = .next t →
    (t.run = .halted ↔ s.selfTransfer (decode s.fetchWord))

/-- R14, R63: an instruction writes no register but the one its control signals name, no memory unless it is a
store, and drives the cache and emits events only if it is a load or store; nothing writes the quirk parameter. -/
def Obligations.OnlyTheListedStateIsWritten : Prop :=
  ∀ (i : Instr) (s t : State), exec i s = .next t →
    (∀ r, (controlSignals i).writes ≠ some r → t.reg r = s.reg r) ∧
    ((controlSignals i).mem ≠ .write → SameMemory s t) ∧
    ((controlSignals i).mem = .write → ∃ a b imm, i = .sw a b imm ∧ SameMemoryBut s t (s.ea a imm)) ∧
    ((controlSignals i).cache = .none → SameCache s t ∧ NoEvents i s) ∧ t.quirkNops = s.quirkNops

/-- R14: an instruction reads no register but those listed: two states that agree on those and on everything
but the general registers lead to states that agree on everything but the registers not written, and emit the same
events. -/
def Obligations.OnlyTheListedRegistersAreRead : Prop :=
  ∀ (i : Instr) (s s' t t' : State), (∀ r ∈ (controlSignals i).reads, s.reg r = s'.reg r) → { s with x := s'.x } = s' →
    exec i s = .next t → exec i s' = .next t' →
    s.eventsOf i = s'.eventsOf i ∧ { t with x := t'.x } = t' ∧ ∀ r, (controlSignals i).writes = some r → t.reg r = t'.reg r

/-- R39, R37 (b): a store to the next cell is executed as the next instruction. -/
def Obligations.AStoredInstructionRunsNext : Prop :=
  ∀ (s t : State) (a b : RegIdx) (imm7 : BitVec 7), s.mem.wf = true → s.run = .running →
    s.cache.config.legal = true → decode s.fetchWord = .sw a b imm7 → s.ea a imm7 = s.pc + 1 → step s = .next t →
    step t = exec (decode (s.reg b)) t

/-- R37 (a): a load from the cell a store wrote reads the stored value. -/
def Obligations.ALoadReadsTheStoreBeforeIt : Prop :=
  ∀ (s t u : State) (a b c d : RegIdx) (i j : BitVec 7), s.mem.wf = true → exec (.sw a b i) s = .next t →
    t.ea c j = s.ea a i → d ≠ 0 → exec (.lw c d j) t = .next u → u.reg d = s.reg b

/-- R96, R97, R100: `jr $7` with the link of a `jal` returns to the cell after the `jal`, also from 8191 to 0. -/
def Obligations.ASubroutineReturnsAfterTheCall : Prop :=
  ∀ (s t u : State) (target : Addr), exec (.jal target) s = .next t → u.reg 7 = t.reg 7 →
    ∃ v, exec (.jr 7) u = .next v ∧ v.pc.toNat = (s.pc.toNat + 1) % 8192

/-- A word placed for the next fetch is the instruction the next step of a running engine runs (log 3). -/
def Obligations.APlacedWordRunsNext : Prop :=
  ∀ (s : State) (w : Word), s.mem.wf = true → s.run = .running → s.cache.config.legal = true →
    step (s.withFetchWord 16 w.toNat) = exec (decode w) (s.withFetchWord 16 w.toNat)

/-- R153, R145: what the ports show once a run has ended; that nothing is shown before is the model's choice
(log 19). -/
def Obligations.PortsShowTheFinalState : Prop :=
  ∀ s : State, s.status = (s.run, s.fault) ∧ (s.run = .running → s.observe = none) ∧
    (s.run ≠ .running → ∃ o, s.observe = some o ∧ o.pc.toNat = s.pc.toNat ∧ o.regs.length = 8 ∧
      (∀ r : RegIdx, o.regs[r.val]? = some (s.reg r)) ∧ o.cells.length = 8192 ∧
      ∀ a : Addr, o.cells[a.toNat]? = some (memRead s.mem a))

/-! ### Register arithmetic -/

/-- R80, with R13 for register 0 and the frame. -/
def Obligations.AddWrapsIntoItsDestination : Prop :=
  ∀ (a b c : RegIdx) (s : State), decode (wordRRR a b c 0) = .add a b c ∧
    ∃ t, exec (.add a b c) s = .next t ∧
      RegUpdate s t c (BitVec.ofNat 16 (((s.reg a).toNat + (s.reg b).toNat) % 65536)) ∧
      EndsInSequence s t ∧ SameMemory s t ∧ SameCache s t ∧ NoEvents (.add a b c) s ∧ SameControl s t

/-- R81: the left operand is `x[rA]` (D5; log 10). -/
def Obligations.SubWrapsIntoItsDestination : Prop :=
  ∀ (a b c : RegIdx) (s : State), decode (wordRRR a b c 1) = .sub a b c ∧
    ∃ t, exec (.sub a b c) s = .next t ∧
      RegUpdate s t c (BitVec.ofInt 16 ((((s.reg a).toNat : Int) - ((s.reg b).toNat : Int)) % 65536)) ∧
      EndsInSequence s t ∧ SameMemory s t ∧ SameCache s t ∧ NoEvents (.sub a b c) s ∧ SameControl s t

/-- R82. -/
def Obligations.OrJoinsAllSixteenBits : Prop :=
  ∀ (a b c : RegIdx) (s : State), decode (wordRRR a b c 2) = .or a b c ∧
    ∃ t v, exec (.or a b c) s = .next t ∧ RegUpdate s t c v ∧
      (∀ k, k < 16 → v.getLsbD k = ((s.reg a).getLsbD k || (s.reg b).getLsbD k)) ∧
      EndsInSequence s t ∧ SameMemory s t ∧ SameCache s t ∧ NoEvents (.or a b c) s ∧ SameControl s t

/-- R83. -/
def Obligations.AndMeetsAllSixteenBits : Prop :=
  ∀ (a b c : RegIdx) (s : State), decode (wordRRR a b c 3) = .and a b c ∧
    ∃ t v, exec (.and a b c) s = .next t ∧ RegUpdate s t c v ∧
      (∀ k, k < 16 → v.getLsbD k = ((s.reg a).getLsbD k && (s.reg b).getLsbD k)) ∧
      EndsInSequence s t ∧ SameMemory s t ∧ SameCache s t ∧ NoEvents (.and a b c) s ∧ SameControl s t

/-- R84: unsigned, on the values 0 to 65535 (D6; log 11). -/
def Obligations.SltComparesUnsigned : Prop :=
  ∀ (a b c : RegIdx) (s : State), decode (wordRRR a b c 4) = .slt a b c ∧
    ∃ t, exec (.slt a b c) s = .next t ∧
      RegUpdate s t c (if (s.reg a).toNat < (s.reg b).toNat then 1 else 0) ∧
      EndsInSequence s t ∧ SameMemory s t ∧ SameCache s t ∧ NoEvents (.slt a b c) s ∧ SameControl s t

/-! ### Immediate arithmetic -/

/-- R90: the immediate read as two's complement is added modulo 65536. -/
def Obligations.AddiAddsTheSignedImmediate : Prop :=
  ∀ (a b : RegIdx) (imm7 : BitVec 7) (s : State), decode (wordRRI 1 a b imm7) = .addi a b imm7 ∧
    ∃ t, exec (.addi a b imm7) s = .next t ∧
      RegUpdate s t b (BitVec.ofInt 16 ((((s.reg a).toNat : Int) + imm7.toInt) % 65536)) ∧
      EndsInSequence s t ∧ SameMemory s t ∧ SameCache s t ∧ NoEvents (.addi a b imm7) s ∧ SameControl s t

/-- R91: the immediate is sign-extended, and then both are compared as numbers 0 to 65535. -/
def Obligations.SltiComparesTheExtendedImmediateUnsigned : Prop :=
  ∀ (a b : RegIdx) (imm7 : BitVec 7) (s : State), decode (wordRRI 7 a b imm7) = .slti a b imm7 ∧
    ∃ t, exec (.slti a b imm7) s = .next t ∧
      RegUpdate s t b (if ((s.reg a).toNat : Int) < imm7.toInt % 65536 then 1 else 0) ∧
      EndsInSequence s t ∧ SameMemory s t ∧ SameCache s t ∧ NoEvents (.slti a b imm7) s ∧ SameControl s t

/-! ### Control transfer -/

/-- R95. -/
def Obligations.JumpGoesToItsTarget : Prop :=
  ∀ (target : Addr) (s : State), decode (wordJ 2 target) = .j target ∧
    ∃ t, exec (.j target) s = .next t ∧ EndsAt s t target.toNat ∧
      SameRegs s t ∧ SameMemory s t ∧ SameCache s t ∧ NoEvents (.j target) s ∧ SameControl s t

/-- R96: the link is `pc + 1` as an integer, written also when the instruction halts (D13; log 12). -/
def Obligations.JumpAndLinkLinksAndGoes : Prop :=
  ∀ (target : Addr) (s : State), decode (wordJ 3 target) = .jal target ∧
    ∃ t, exec (.jal target) s = .next t ∧ EndsAt s t target.toNat ∧
      RegUpdate s t 7 (BitVec.ofNat 16 (s.pc.toNat + 1)) ∧
      SameMemory s t ∧ SameCache s t ∧ NoEvents (.jal target) s ∧ SameControl s t

/-- R97 and R61: bits [12:0] of `x[rA]`; the fields `rB` and `rC` are ignored (D7; log 10). -/
def Obligations.JumpRegisterGoesToTheLowBits : Prop :=
  ∀ (a b c : RegIdx) (s : State), decode (wordRRR a b c 8) = .jr a ∧
    ∃ t, exec (.jr a) s = .next t ∧ EndsAt s t ((s.reg a).toNat % 8192) ∧
      SameRegs s t ∧ SameMemory s t ∧ SameCache s t ∧ NoEvents (.jr a) s ∧ SameControl s t

/-- R98: the displacement is relative to the next instruction and the target is reduced modulo 8192. -/
def Obligations.BranchGoesToTheRelativeTarget : Prop :=
  ∀ (a b : RegIdx) (imm7 : BitVec 7) (s : State), decode (wordRRI 6 a b imm7) = .jeq a b imm7 ∧
    ∃ t, exec (.jeq a b imm7) s = .next t ∧
      EndsAt s t (if s.reg a = s.reg b then (((s.pc.toNat : Int) + 1 + imm7.toInt) % 8192).toNat
        else (s.pc.toNat + 1) % 8192) ∧
      SameRegs s t ∧ SameMemory s t ∧ SameCache s t ∧ NoEvents (.jeq a b imm7) s ∧ SameControl s t

/-! ### Loads and stores -/

/-- R105. -/
def Obligations.EffectiveAddressIsBasePlusDisplacement : Prop :=
  ∀ (a : RegIdx) (imm7 : BitVec 7) (s : State),
    ((s.ea a imm7).toNat : Int) = (((s.reg a).toNat : Int) + imm7.toInt) % 8192

/-- R106: the value is always memory's; the hierarchy is driven by `CacheLoad` (R130), also if `rB` is 0 (D27; log
14), and the events are the records of `CacheLoad`. -/
def Obligations.LoadReadsItsCell : Prop :=
  ∀ (a b : RegIdx) (imm7 : BitVec 7) (s : State), decode (wordRRI 4 a b imm7) = .lw a b imm7 ∧
    ∃ t, exec (.lw a b imm7) s = .next t ∧ RegUpdate s t b (memRead s.mem (s.ea a imm7)) ∧
      EndsInSequence s t ∧ SameMemory s t ∧ SameControl s t ∧
      t.cache = (s.cache.load s.pc (s.ea a imm7)).1 ∧
      s.eventsOf (.lw a b imm7) = (s.cache.load s.pc (s.ea a imm7)).2

/-- R107: the whole Word is stored in the one cell at the effective address, every byte outside that cell reads
as before, and the hierarchy is driven by `CacheStore` (R131), whose records are the events. -/
def Obligations.StoreWritesItsCellOnly : Prop :=
  ∀ (a b : RegIdx) (imm7 : BitVec 7) (s : State), decode (wordRRI 5 a b imm7) = .sw a b imm7 ∧
    (s.mem.wf = true → ∃ t, exec (.sw a b imm7) s = .next t ∧ memRead t.mem (s.ea a imm7) = s.reg b ∧
      SameMemoryBut s t (s.ea a imm7) ∧ t.mem.wf = true ∧ SameRegs s t ∧ EndsInSequence s t ∧ SameControl s t ∧
      t.cache = (s.cache.store s.pc (s.ea a imm7)).1 ∧
      s.eventsOf (.sw a b imm7) = (s.cache.store s.pc (s.ea a imm7)).2)

/-! ### The exception -/

/-- R140, R141, R144: each of the ten unused function codes, its ignored fields at any value, takes
InvalidFunction: the fault record is saved, `run` becomes FAULTED, and nothing else changes. -/
def Obligations.UnusedFunctionCodesFault : Prop :=
  ∀ p ∈ [(Instr.invalidF5, InvalidFunc.f5, 5), (.invalidF6, .f6, 6), (.invalidF7, .f7, 7), (.invalidF9, .f9, 9),
      (.invalidF10, .f10, 10), (.invalidF11, .f11, 11), (.invalidF12, .f12, 12), (.invalidF13, .f13, 13),
      (.invalidF14, .f14, 14), (.invalidF15, .f15, 15)],
    ∀ (a b c : RegIdx) (s : State), decode (wordRRR a b c p.2.2) = p.1 ∧
      (p.2.1 ∉ s.quirkNops → ∃ t, exec p.1 s = .next t ∧ t.run = .faulted ∧
        (∃ r, t.fault = some r ∧ r.cause.code = 1 ∧ r.func.toNat = p.2.2 ∧ r.pc = s.pc) ∧
        t.pc = s.pc ∧ SameRegs s t ∧ SameMemory s t ∧ SameCache s t ∧ NoEvents p.1 s ∧
        t.quirkNops = s.quirkNops)

/-- R142: a function code in QUIRK_NOP_FUNCS writes nothing and goes on at `pc + 1`; it never halts. -/
def Obligations.QuirkFunctionCodesAreNoOps : Prop :=
  ∀ p ∈ [(Instr.invalidF5, InvalidFunc.f5), (.invalidF6, .f6), (.invalidF7, .f7), (.invalidF9, .f9),
      (.invalidF10, .f10), (.invalidF11, .f11), (.invalidF12, .f12), (.invalidF13, .f13),
      (.invalidF14, .f14), (.invalidF15, .f15)],
    ∀ s : State, p.2 ∈ s.quirkNops → ∃ t, exec p.1 s = .next t ∧ EndsInSequence s t ∧
      SameRegs s t ∧ SameMemory s t ∧ SameCache s t ∧ NoEvents p.1 s ∧ SameControl s t

/-! ### Address decomposer -/

/-- R114, with R112's consequence: the decomposition loses nothing, and two addresses with one row and tag lie
in one block. -/
def Obligations.DecompositionLosesNothing : Prop :=
  ∀ (a b : Addr) (block rows : Nat), 0 < block → 0 < rows →
    a.toNat = ((decompose a block rows).tag * rows + (decompose a block rows).row) * block +
      (decompose a block rows).offset ∧
    ((decompose a block rows).row = (decompose b block rows).row ∧
      (decompose a block rows).tag = (decompose b block rows).tag ↔
      (decompose a block rows).blk = (decompose b block rows).blk) ∧
    (decompose a block rows = decompose b block rows → a = b)

/-- R115: the ranges of the outputs. -/
def Obligations.DecompositionStaysInRange : Prop :=
  ∀ (a : Addr) (block rows : Nat), 0 < block → 0 < rows →
    (decompose a block rows).blk ≤ 8191 / block ∧ (decompose a block rows).row ≤ rows - 1 ∧
    (decompose a block rows).tag ≤ 8191 / (block * rows) ∧ (decompose a block rows).offset ≤ block - 1 ∧
    (8192 ≤ block * rows → (decompose a block rows).tag = 0) ∧
    (8191 < block → (decompose a block rows).blk = 0) ∧
    (rows = 1 → (decompose a block rows).row = 0 ∧
      (decompose a block rows).tag = (decompose a block rows).blk)

/-- R116: for powers of two the outputs are bit slices of the address. -/
def Obligations.PowersOfTwoGiveBitSlices : Prop :=
  ∀ (a : Addr) (b r : Nat), decompose a (2 ^ b) (2 ^ r) =
    { blk := (a >>> b).toNat, row := (a.extractLsb' b r).toNat, tag := (a >>> (b + r)).toNat,
      offset := (a.extractLsb' 0 b).toNat }

/-! ### Cache hierarchy -/

/-- R126 with R111, R112 and R122 to R125: a load resolution at a level, for every state of its arrays. That the
lowest match is hit and that every line competes for victim are the spec's decisions D17 and D16 (log 13). -/
def Obligations.LoadResolutionHitsOrInstalls : Prop :=
  ∀ (l : Level) (addr : Addr) (S : List Line), l.sets[l.rowOf addr]? = some S → S ≠ [] →
    ∃ S', OneSetReplaced l (l.resolveLoad addr).2 (l.rowOf addr) S' ∧
      ((∃ i, LowestMatch S (l.tagOf addr) i ∧ (l.resolveLoad addr).1 = .hit ∧ TouchedAt S S' i) ∨
       ((∀ x ∈ S, ¬ (x.valid = true ∧ x.tag = l.tagOf addr)) ∧ (l.resolveLoad addr).1 = .miss ∧
        ∃ v, LowestOldest S v ∧ InstalledAt S S' v (l.tagOf addr)))

/-- R127 with R124: a store resolution makes no lookup: it is the install of R126, whatever the set holds. That every
line competes for victim is the spec's decision D16 (log 13). -/
def Obligations.StoreResolutionAlwaysInstalls : Prop :=
  ∀ (l : Level) (addr : Addr) (S : List Line), l.sets[l.rowOf addr]? = some S → S ≠ [] →
    ∃ S' v, OneSetReplaced l (l.resolveStore addr) (l.rowOf addr) S' ∧ LowestOldest S v ∧
      InstalledAt S S' v (l.tagOf addr)

/-- R130: L1 first; L2 only if L1 misses, resolved on its own; an L1 hit leaves L2 as it was. -/
def Obligations.LoadConsultsL2OnlyAfterAnL1Miss : Prop :=
  ∀ (a b : RegIdx) (imm7 : BitVec 7) (s t : State), exec (.lw a b imm7) s = .next t →
    (s.cache = .none → t.cache = .none ∧ s.eventsOf (.lw a b imm7) = []) ∧
    (∀ l1, s.cache = .one l1 → t.cache = .one (l1.resolveLoad (s.ea a imm7)).2 ∧
      s.eventsOf (.lw a b imm7) = [record l1 .L1 (l1.resolveLoad (s.ea a imm7)).1 s.pc (s.ea a imm7)]) ∧
    ∀ l1 l2, s.cache = .two l1 l2 →
      ((l1.resolveLoad (s.ea a imm7)).1 = .hit ∧ t.cache = .two (l1.resolveLoad (s.ea a imm7)).2 l2 ∧
        s.eventsOf (.lw a b imm7) = [record l1 .L1 .hit s.pc (s.ea a imm7)]) ∨
      ((l1.resolveLoad (s.ea a imm7)).1 = .miss ∧
        t.cache = .two (l1.resolveLoad (s.ea a imm7)).2 (l2.resolveLoad (s.ea a imm7)).2 ∧
        s.eventsOf (.lw a b imm7) = [record l1 .L1 .miss s.pc (s.ea a imm7),
          record l2 .L2 (l2.resolveLoad (s.ea a imm7)).1 s.pc (s.ea a imm7)])

/-- R131: a store reaches every configured level and emits one record for each. -/
def Obligations.StoreReachesEveryLevel : Prop :=
  ∀ (a b : RegIdx) (imm7 : BitVec 7) (s t : State), exec (.sw a b imm7) s = .next t →
    (s.cache = .none → t.cache = .none ∧ s.eventsOf (.sw a b imm7) = []) ∧
    (∀ l1, s.cache = .one l1 → t.cache = .one (l1.resolveStore (s.ea a imm7)) ∧
      s.eventsOf (.sw a b imm7) = [record l1 .L1 .sw s.pc (s.ea a imm7)]) ∧
    ∀ l1 l2, s.cache = .two l1 l2 →
      t.cache = .two (l1.resolveStore (s.ea a imm7)) (l2.resolveStore (s.ea a imm7)) ∧
      s.eventsOf (.sw a b imm7) = [record l1 .L1 .sw s.pc (s.ea a imm7), record l2 .L2 .sw s.pc (s.ea a imm7)]

/-- R124 and its consequences: the model's victim of a set with a line is the lowest line of largest recency, valid
or not (D16; log 13); under R24 it is the lowest invalid line, or, in a full set, the one line of largest recency. -/
def Obligations.VictimIsFirstEmptyOrLeastRecent : Prop :=
  ∀ S : List Line, S ≠ [] → LowestOldest S (victim S) ∧ ∀ n : Nat, RecencyInv n S →
    ((∃ x ∈ S, x.valid = false) → (∃ x, S[victim S]? = some x ∧ x.valid = false) ∧
      ∀ j x, j < victim S → S[j]? = some x → x.valid = true) ∧
    ((∀ x ∈ S, x.valid = true) → ∀ j x y, j ≠ victim S → S[j]? = some x → S[victim S]? = some y →
      x.recency < y.recency)

/-- R138: one resolution of a set takes R24 from `n` accesses to `n + 1`, for a load and for a store. -/
def Obligations.OneResolutionCountsOneAccess : Prop :=
  ∀ (n tag : Nat) (S : List Line), S ≠ [] → RecencyInv n S →
    RecencyInv (n + 1) (loadSet S tag).2 ∧ RecencyInv (n + 1) (installTag S tag)

/-- R23, R137: no step clears a valid bit, at any level, row and line, nor resizes an array. -/
def Obligations.ValidLinesStayValid : Prop :=
  ∀ s t : State, step s = .next t → ∀ (k : Nat) (l : Level), s.cache.levels[k]? = some l →
    ∃ l', t.cache.levels[k]? = some l' ∧ l'.sets.length = l.sets.length ∧
      ∀ (row : Nat) (S : List Line), l.sets[row]? = some S → ∃ S', l'.sets[row]? = some S' ∧ S'.length = S.length ∧
        ∀ (i : Nat) (x : Line), S[i]? = some x → x.valid = true → ∃ x', S'[i]? = some x' ∧ x'.valid = true
end

