-- ==== Sys2Proof/Laws/State.lean ====
section
/-! SUPPORT. One lemma per field per update of the state, all by rfl, and the field lemmas of the end of a
step, so that no later proof unfolds a record update. -/

namespace Sys2Proof.Machine

variable (s : State)

@[simp] theorem State.writeReg_x (i : RegIdx) (v : Word) : (s.writeReg i v).x = s.x.write i v := rfl
@[simp] theorem State.writeReg_pc (i : RegIdx) (v : Word) : (s.writeReg i v).pc = s.pc := rfl
@[simp] theorem State.writeReg_run (i : RegIdx) (v : Word) : (s.writeReg i v).run = s.run := rfl
@[simp] theorem State.writeReg_fault (i : RegIdx) (v : Word) : (s.writeReg i v).fault = s.fault := rfl
@[simp] theorem State.writeReg_mem (i : RegIdx) (v : Word) : (s.writeReg i v).mem = s.mem := rfl
@[simp] theorem State.writeReg_cache (i : RegIdx) (v : Word) : (s.writeReg i v).cache = s.cache := rfl
@[simp] theorem State.writeReg_quirkNops (i : RegIdx) (v : Word) : (s.writeReg i v).quirkNops = s.quirkNops := rfl

@[simp] theorem State.storeCell_x (a : Addr) (v : Word) : (s.storeCell a v).x = s.x := rfl
@[simp] theorem State.storeCell_pc (a : Addr) (v : Word) : (s.storeCell a v).pc = s.pc := rfl
@[simp] theorem State.storeCell_run (a : Addr) (v : Word) : (s.storeCell a v).run = s.run := rfl
@[simp] theorem State.storeCell_fault (a : Addr) (v : Word) : (s.storeCell a v).fault = s.fault := rfl
@[simp] theorem State.storeCell_mem (a : Addr) (v : Word) : (s.storeCell a v).mem = memWrite s.mem a v := rfl
@[simp] theorem State.storeCell_cache (a : Addr) (v : Word) : (s.storeCell a v).cache = s.cache := rfl
@[simp] theorem State.storeCell_quirkNops (a : Addr) (v : Word) : (s.storeCell a v).quirkNops = s.quirkNops := rfl

@[simp] theorem State.cacheLoad_x (a : Addr) : (s.cacheLoad a).x = s.x := rfl
@[simp] theorem State.cacheLoad_pc (a : Addr) : (s.cacheLoad a).pc = s.pc := rfl
@[simp] theorem State.cacheLoad_run (a : Addr) : (s.cacheLoad a).run = s.run := rfl
@[simp] theorem State.cacheLoad_fault (a : Addr) : (s.cacheLoad a).fault = s.fault := rfl
@[simp] theorem State.cacheLoad_mem (a : Addr) : (s.cacheLoad a).mem = s.mem := rfl
@[simp] theorem State.cacheLoad_cache (a : Addr) : (s.cacheLoad a).cache = (s.cache.load s.pc a).1 := rfl
@[simp] theorem State.cacheLoad_quirkNops (a : Addr) : (s.cacheLoad a).quirkNops = s.quirkNops := rfl

@[simp] theorem State.cacheStore_x (a : Addr) : (s.cacheStore a).x = s.x := rfl
@[simp] theorem State.cacheStore_pc (a : Addr) : (s.cacheStore a).pc = s.pc := rfl
@[simp] theorem State.cacheStore_run (a : Addr) : (s.cacheStore a).run = s.run := rfl
@[simp] theorem State.cacheStore_fault (a : Addr) : (s.cacheStore a).fault = s.fault := rfl
@[simp] theorem State.cacheStore_mem (a : Addr) : (s.cacheStore a).mem = s.mem := rfl
@[simp] theorem State.cacheStore_cache (a : Addr) : (s.cacheStore a).cache = (s.cache.store s.pc a).1 := rfl
@[simp] theorem State.cacheStore_quirkNops (a : Addr) : (s.cacheStore a).quirkNops = s.quirkNops := rfl

@[simp] theorem State.takeInvalidFunction_x (f : InvalidFunc) : (s.takeInvalidFunction f).x = s.x := rfl
@[simp] theorem State.takeInvalidFunction_pc (f : InvalidFunc) : (s.takeInvalidFunction f).pc = s.pc := rfl
@[simp] theorem State.takeInvalidFunction_run (f : InvalidFunc) : (s.takeInvalidFunction f).run = .faulted := rfl
@[simp] theorem State.takeInvalidFunction_fault (f : InvalidFunc) : (s.takeInvalidFunction f).fault = some { cause := .invalidFunction, func := f.code, pc := s.pc } := rfl
@[simp] theorem State.takeInvalidFunction_mem (f : InvalidFunc) : (s.takeInvalidFunction f).mem = s.mem := rfl
@[simp] theorem State.takeInvalidFunction_cache (f : InvalidFunc) : (s.takeInvalidFunction f).cache = s.cache := rfl
@[simp] theorem State.takeInvalidFunction_quirkNops (f : InvalidFunc) : (s.takeInvalidFunction f).quirkNops = s.quirkNops := rfl

/-! ### The end of a step -/

@[simp] theorem State.endStep_x (n : Word) : (s.endStep n).x = s.x := by
  unfold State.endStep; split <;> rfl
@[simp] theorem State.advance_x : s.advance.x = s.x := State.endStep_x s _
@[simp] theorem State.endStep_fault (n : Word) : (s.endStep n).fault = s.fault := by
  unfold State.endStep; split <;> rfl
@[simp] theorem State.advance_fault : s.advance.fault = s.fault := State.endStep_fault s _
@[simp] theorem State.endStep_mem (n : Word) : (s.endStep n).mem = s.mem := by
  unfold State.endStep; split <;> rfl
@[simp] theorem State.advance_mem : s.advance.mem = s.mem := State.endStep_mem s _
@[simp] theorem State.endStep_cache (n : Word) : (s.endStep n).cache = s.cache := by
  unfold State.endStep; split <;> rfl
@[simp] theorem State.advance_cache : s.advance.cache = s.cache := State.endStep_cache s _
@[simp] theorem State.endStep_quirkNops (n : Word) : (s.endStep n).quirkNops = s.quirkNops := by
  unfold State.endStep; split <;> rfl
@[simp] theorem State.advance_quirkNops : s.advance.quirkNops = s.quirkNops := State.endStep_quirkNops s _

/-- The stored pc is the reduced next-PC whether or not the step halts (R76). -/
@[simp] theorem State.endStep_pc (n : Word) : (s.endStep n).pc = n.setWidth 13 := by
  unfold State.endStep; split <;> simp_all

/-- The step halts exactly if the reduced next-PC is the address executed (R76). -/
@[simp] theorem State.endStep_run (n : Word) :
    (s.endStep n).run = if n.setWidth 13 = s.pc then .halted else s.run := by
  unfold State.endStep; split <;> rfl

theorem State.pcPlusOne_toNat : s.pcPlusOne.toNat = s.pc.toNat + 1 := by
  have := s.pc.isLt
  have h1 : (1 : Word).toNat = 1 := rfl
  simp only [State.pcPlusOne, BitVec.toNat_add, BitVec.toNat_setWidth, h1]
  omega

theorem State.pcPlusOne_reduced : s.pcPlusOne.setWidth 13 = s.pc + 1 := by
  apply BitVec.eq_of_toNat_eq
  rw [BitVec.toNat_setWidth, State.pcPlusOne_toNat, BitVec.toNat_add]
  rfl

theorem addr_succ_ne (a : Addr) : a + 1 ≠ a := by
  intro h
  have h' := congrArg BitVec.toNat h
  have := a.isLt
  have h1 : (1 : Addr).toNat = 1 := rfl
  simp only [BitVec.toNat_add, h1] at h'
  omega

/-- An instruction that is no transfer goes on at the next cell (R74). -/
@[simp] theorem State.advance_pc : s.advance.pc = s.pc + 1 := by
  rw [State.advance, State.endStep_pc, State.pcPlusOne_reduced]

/-- An instruction that is no transfer never halts (R79). -/
@[simp] theorem State.advance_run : s.advance.run = s.run := by
  rw [State.advance, State.endStep_run, State.pcPlusOne_reduced, if_neg (addr_succ_ne s.pc)]

end Sys2Proof.Machine
end

