-- ==== Sys2Proof/Laws/Cache.lean ====
section
/-! SUPPORT. What the cache operations can do: on one set (spec/46_cache_hierarchy.md R123 to R127), on one
level, and which parts of the hierarchy they leave alone (R125, R137). -/

namespace Sys2Proof.Machine

/-! ### One set -/

/-- A hit is at the lowest valid line that holds the tag (R123). -/
theorem lookup_eq_some_iff (S : List Line) (tag i : Nat) :
    lookup S tag = some i ↔ ∃ h : i < S.length, (S[i].valid = true ∧ S[i].tag = tag) ∧
      ∀ j, ∀ hj : j < i, ¬ (S[j].valid = true ∧ S[j].tag = tag) := by
  simp [lookup, List.findIdx?_eq_some_iff_getElem]

/-- A miss means that no valid line holds the tag (R123). -/
theorem lookup_eq_none_iff (S : List Line) (tag : Nat) :
    lookup S tag = none ↔ ∀ l ∈ S, ¬ (l.valid = true ∧ l.tag = tag) := by
  simp [lookup, List.findIdx?_eq_none_iff]

/-- A set with a line has a line of largest recency. -/
theorem exists_maximal {S : List Line} (h : S ≠ []) : ∃ l ∈ S, ∀ m ∈ S, m.recency ≤ l.recency := by
  induction S with
  | nil => exact absurd rfl h
  | cons a S ih =>
    by_cases hS : S = []
    · exact ⟨a, by simp, by simp [hS]⟩
    · obtain ⟨l, hl, hmax⟩ := ih hS
      rcases Nat.le_total a.recency l.recency with hle | hle
      · exact ⟨l, by simp [hl], by simpa [hle] using hmax⟩
      · refine ⟨a, by simp, fun m hm => ?_⟩
        rcases List.mem_cons.mp hm with rfl | hm
        · exact Nat.le_refl _
        · exact Nat.le_trans (hmax m hm) hle

/-- The victim of a set with a line is one of its lines. -/
theorem victim_lt {S : List Line} (h : S ≠ []) : victim S < S.length := by
  obtain ⟨l, hl, hmax⟩ := exists_maximal h
  exact List.findIdx_lt_length_of_exists ⟨l, hl, by simpa using hmax⟩

/-- No recency of the set exceeds the victim's (R124). -/
theorem victim_maximal {S : List Line} (h : S ≠ []) :
    ∀ m ∈ S, m.recency ≤ (S[victim S]'(victim_lt h)).recency := by
  have hm := List.findIdx_getElem (w := victim_lt h)
  rw [List.all_eq_true] at hm
  exact fun m hmem => of_decide_eq_true (hm m hmem)

/-- A line below the victim has a smaller recency (R124). -/
theorem victim_lowest {S : List Line} (h : S ≠ []) (j : Nat) (hj : j < victim S) :
    (S[j]'(hj.trans (victim_lt h))).recency < (S[victim S]'(victim_lt h)).recency := by
  have hn := List.not_of_lt_findIdx (p := fun l : Line => S.all fun m => decide (m.recency ≤ l.recency)) hj
  simp only [decide_eq_true_eq, List.all_eq_false] at hn
  obtain ⟨m, hm, hlt⟩ := hn
  exact lt_of_lt_of_le (by omega) (victim_maximal h m hm)

@[simp] theorem touch_length (S : List Line) (i : Nat) : (touch S i).length = S.length := by
  simp [touch]

/-- Each line after a touch (R125). -/
theorem touch_getElem (S : List Line) (i j : Nat) (h : j < (touch S i).length) :
    (touch S i)[j] = { S[j]'(by simpa using h) with
      recency := if j = i then 0 else (S[j]'(by simpa using h)).recency + 1 } := by
  simp [touch]

@[simp] theorem installTag_length (S : List Line) (tag : Nat) : (installTag S tag).length = S.length := by
  simp [installTag]

/-- Each line after an install: the victim holds the tag, valid, with recency 0; every other line only ages
(R126, R127). -/
theorem installTag_getElem (S : List Line) (tag j : Nat) (h : j < (installTag S tag).length) :
    (installTag S tag)[j] =
      if j = victim S then { valid := true, tag := tag, recency := 0 }
      else { S[j]'(by simpa using h) with recency := (S[j]'(by simpa using h)).recency + 1 } := by
  simp only [installTag, touch_getElem, List.getElem_modify]
  by_cases hj : j = victim S
  · simp [hj]
  · simp [hj, Ne.symm hj]

/-- A load resolution hits and touches the line found, or misses and installs (R126). -/
theorem loadSet_cases (S : List Line) (tag : Nat) :
    (∃ i, lookup S tag = some i ∧ loadSet S tag = (.hit, touch S i)) ∨
    (lookup S tag = none ∧ loadSet S tag = (.miss, installTag S tag)) := by
  unfold loadSet
  cases h : lookup S tag with
  | some i => exact .inl ⟨i, rfl, rfl⟩
  | none => exact .inr ⟨rfl, rfl⟩

@[simp] theorem loadSet_length (S : List Line) (tag : Nat) : (loadSet S tag).2.length = S.length := by
  rcases loadSet_cases S tag with ⟨i, -, h⟩ | ⟨-, h⟩ <;> simp [h]

/-! ### One level -/

@[simp] theorem Level.withSet_geom (l : Level) (row : Nat) (S : List Line) : (l.withSet row S).geom = l.geom := rfl

@[simp] theorem Level.withSet_sets (l : Level) (row : Nat) (S : List Line) :
    (l.withSet row S).sets = l.sets.set row S := rfl

@[simp] theorem Level.resolveLoad_geom (l : Level) (a : Addr) : (l.resolveLoad a).2.geom = l.geom := rfl

@[simp] theorem Level.resolveStore_geom (l : Level) (a : Addr) : (l.resolveStore a).geom = l.geom := rfl

@[simp] theorem Level.resolveLoad_sets (l : Level) (a : Addr) :
    (l.resolveLoad a).2.sets = l.sets.set (l.split a).row (loadSet (l.setAt (l.split a).row) (l.split a).tag).2 := rfl

@[simp] theorem Level.resolveStore_sets (l : Level) (a : Addr) :
    (l.resolveStore a).sets = l.sets.set (l.split a).row (installTag (l.setAt (l.split a).row) (l.split a).tag) := rfl

/-- A resolution is a hit or a miss, never a store (R126). -/
theorem Level.resolveLoad_kind (l : Level) (a : Addr) :
    (l.resolveLoad a).1 = .hit ∨ (l.resolveLoad a).1 = .miss := by
  rcases loadSet_cases (l.setAt (l.split a).row) (l.split a).tag with ⟨i, -, h⟩ | ⟨-, h⟩
  · exact .inl (by simp [Level.resolveLoad, h])
  · exact .inr (by simp [Level.resolveLoad, h])

/-- The row of an address lies in the arrays of a shaped level (R111, R122). -/
theorem Level.split_row_lt {l : Level} (h : l.Shaped) (a : Addr) : (l.split a).row < l.sets.length := by
  obtain ⟨hg, hl, -⟩ := h
  simp only [Geometry.legal, Bool.and_eq_true, decide_eq_true_eq] at hg
  obtain ⟨⟨⟨hs, ha⟩, hb⟩, hd⟩ := hg
  rw [hl]
  refine Nat.mod_lt _ ?_
  exact Nat.div_pos (Nat.le_of_dvd hs (Nat.dvd_of_mod_eq_zero hd)) (Nat.mul_pos ha hb)

/-- The set selected in a shaped level is one of its sets. -/
theorem Level.setAt_mem {l : Level} (h : l.Shaped) (a : Addr) : l.setAt (l.split a).row ∈ l.sets := by
  have hr := Level.split_row_lt h a
  rw [Level.setAt, List.getD_eq_getElem _ _ hr]
  exact List.getElem_mem hr

/-- The sets of a shaped level have at least one line. -/
theorem Level.Shaped.set_ne_nil {l : Level} (h : l.Shaped) {S : List Line} (hS : S ∈ l.sets) : S ≠ [] := by
  obtain ⟨hg, -, hl⟩ := h
  simp only [Geometry.legal, Bool.and_eq_true, decide_eq_true_eq] at hg
  intro h0
  have := hl S hS
  rw [h0, List.length_nil] at this
  omega

/-! ### The hierarchy -/

/-- What a load resolution can do to the hierarchy and emit (R130, R134), with the level kept (R137). -/
theorem Hierarchy.load_cases (h : Hierarchy) (pc a : Addr) :
    (h = .none ∧ h.load pc a = (.none, [])) ∨
    (∃ l1, h = .one l1 ∧ h.load pc a = (.one (l1.resolveLoad a).2, [l1.event .L1 (l1.resolveLoad a).1 pc a])) ∨
    (∃ l1 l2, h = .two l1 l2 ∧ (l1.resolveLoad a).1 = .hit ∧
      h.load pc a = (.two (l1.resolveLoad a).2 l2, [l1.event .L1 .hit pc a])) ∨
    (∃ l1 l2, h = .two l1 l2 ∧ (l1.resolveLoad a).1 = .miss ∧
      h.load pc a = (.two (l1.resolveLoad a).2 (l2.resolveLoad a).2,
        [l1.event .L1 .miss pc a, l2.event .L2 (l2.resolveLoad a).1 pc a])) := by
  cases h with
  | none => exact .inl ⟨rfl, rfl⟩
  | one l1 => exact .inr (.inl ⟨l1, rfl, rfl⟩)
  | two l1 l2 =>
    rcases Level.resolveLoad_kind l1 a with hk | hk
    · exact .inr (.inr (.inl ⟨l1, l2, rfl, hk, by simp [Hierarchy.load, hk]⟩))
    · exact .inr (.inr (.inr ⟨l1, l2, rfl, hk, by simp [Hierarchy.load, hk]⟩))

/-- A load keeps the configuration registers (R20). -/
@[simp] theorem Hierarchy.load_config (h : Hierarchy) (pc a : Addr) : (h.load pc a).1.config = h.config := by
  rcases Hierarchy.load_cases h pc a with ⟨rfl, e⟩ | ⟨l1, rfl, e⟩ | ⟨l1, l2, rfl, -, e⟩ | ⟨l1, l2, rfl, -, e⟩ <;>
    simp [e, Hierarchy.config]

/-- A store keeps the configuration registers (R20). -/
@[simp] theorem Hierarchy.store_config (h : Hierarchy) (pc a : Addr) : (h.store pc a).1.config = h.config := by
  cases h <;> rfl

/-- Every level after a load is a level before it, or such a level resolved for the address (R130, R137). -/
theorem Hierarchy.load_levels {h : Hierarchy} {pc a : Addr} {l : Level} (hl : l ∈ (h.load pc a).1.levels) :
    ∃ l0 ∈ h.levels, l = l0 ∨ l = (l0.resolveLoad a).2 := by
  rcases Hierarchy.load_cases h pc a with ⟨rfl, e⟩ | ⟨l1, rfl, e⟩ | ⟨l1, l2, rfl, -, e⟩ | ⟨l1, l2, rfl, -, e⟩
  · rw [e] at hl
    simp [Hierarchy.levels] at hl
  · rw [e] at hl
    exact ⟨l1, by simp [Hierarchy.levels], .inr (by simpa [Hierarchy.levels] using hl)⟩
  · rw [e] at hl
    simp only [Hierarchy.levels, List.mem_cons, List.not_mem_nil, or_false] at hl
    rcases hl with rfl | rfl
    · exact ⟨l1, by simp [Hierarchy.levels], .inr rfl⟩
    · exact ⟨l, by simp [Hierarchy.levels], .inl rfl⟩
  · rw [e] at hl
    simp only [Hierarchy.levels, List.mem_cons, List.not_mem_nil, or_false] at hl
    rcases hl with rfl | rfl
    · exact ⟨l1, by simp [Hierarchy.levels], .inr rfl⟩
    · exact ⟨l2, by simp [Hierarchy.levels], .inr rfl⟩

/-- Every level after a store is a level before it resolved for the address (R131, R137). -/
theorem Hierarchy.store_levels {h : Hierarchy} {pc a : Addr} {l : Level} (hl : l ∈ (h.store pc a).1.levels) :
    ∃ l0 ∈ h.levels, l = l0.resolveStore a := by
  cases h with
  | none => simp [Hierarchy.store, Hierarchy.levels] at hl
  | one l1 => exact ⟨l1, by simp [Hierarchy.levels], by simpa [Hierarchy.store, Hierarchy.levels] using hl⟩
  | two l1 l2 =>
    simp only [Hierarchy.store, Hierarchy.levels, List.mem_cons, List.not_mem_nil, or_false] at hl
    rcases hl with rfl | rfl
    · exact ⟨l1, by simp [Hierarchy.levels], rfl⟩
    · exact ⟨l2, by simp [Hierarchy.levels], rfl⟩

end Sys2Proof.Machine
end

