-- ==== Sys2Proof/Laws/Decode.lean ====
section
/-! SUPPORT. What the decoder's field extraction reads from the encoder's words (spec/30_encoding.md R52 to
R56), and the sign extension as the family of values R56 gives. -/

namespace Sys2Proof

/-- The part of a joined bit vector below the joint. -/
theorem extractLsb'_append_low {m n k j : Nat} (x : BitVec m) (y : BitVec n) (h : j + k ≤ n) :
    (x ++ y).extractLsb' j k = y.extractLsb' j k := by
  apply BitVec.eq_of_getLsbD_eq
  intro i hi
  simp only [BitVec.getLsbD_extractLsb', BitVec.getLsbD_append]
  simp [hi, show j + i < n by omega]

/-- The part of a joined bit vector above the joint. -/
theorem extractLsb'_append_high {m n k j : Nat} (x : BitVec m) (y : BitVec n) (h : n ≤ j) :
    (x ++ y).extractLsb' j k = x.extractLsb' (j - n) k := by
  apply BitVec.eq_of_getLsbD_eq
  intro i hi
  simp only [BitVec.getLsbD_extractLsb', BitVec.getLsbD_append]
  simp [hi, show ¬ j + i < n by omega, show j + i - n = j - n + i by omega]

theorem extractLsb'_whole {n : Nat} (x : BitVec n) : x.extractLsb' 0 n = x := by
  apply BitVec.eq_of_getLsbD_eq
  intro i hi
  simp [hi]

theorem encodeRRR_cls (a b c : RegIdx) (f : BitVec 4) : (fields (encodeRRR a b c f)).cls = 0 := by
  simp only [fields, encodeRRR]
  rw [extractLsb'_append_high _ _ (by omega), extractLsb'_append_high _ _ (by omega),
    extractLsb'_append_high _ _ (by omega), extractLsb'_append_high _ _ (by omega)]
  exact extractLsb'_whole _

theorem encodeRRR_rA (a b c : RegIdx) (f : BitVec 4) : (fields (encodeRRR a b c f)).rA = a := by
  simp only [fields, encodeRRR]
  rw [extractLsb'_append_high _ _ (by omega), extractLsb'_append_high _ _ (by omega),
    extractLsb'_append_high _ _ (by omega), extractLsb'_append_low _ _ (by omega)]
  exact congrArg BitVec.toFin (extractLsb'_whole _)

theorem encodeRRR_rB (a b c : RegIdx) (f : BitVec 4) : (fields (encodeRRR a b c f)).rB = b := by
  simp only [fields, encodeRRR]
  rw [extractLsb'_append_high _ _ (by omega), extractLsb'_append_high _ _ (by omega),
    extractLsb'_append_low _ _ (by omega)]
  exact congrArg BitVec.toFin (extractLsb'_whole _)

theorem encodeRRR_rC (a b c : RegIdx) (f : BitVec 4) : (fields (encodeRRR a b c f)).rC = c := by
  simp only [fields, encodeRRR]
  rw [extractLsb'_append_high _ _ (by omega), extractLsb'_append_low _ _ (by omega)]
  exact congrArg BitVec.toFin (extractLsb'_whole _)

theorem encodeRRR_func (a b c : RegIdx) (f : BitVec 4) : (fields (encodeRRR a b c f)).func = f := by
  simp only [fields, encodeRRR]
  rw [extractLsb'_append_low _ _ (by omega)]
  exact extractLsb'_whole _

theorem encodeRRI_cls (k : BitVec 3) (a b : RegIdx) (i : BitVec 7) : (fields (encodeRRI k a b i)).cls = k := by
  simp only [fields, encodeRRI]
  rw [extractLsb'_append_high _ _ (by omega), extractLsb'_append_high _ _ (by omega),
    extractLsb'_append_high _ _ (by omega)]
  exact extractLsb'_whole _

theorem encodeRRI_rA (k : BitVec 3) (a b : RegIdx) (i : BitVec 7) : (fields (encodeRRI k a b i)).rA = a := by
  simp only [fields, encodeRRI]
  rw [extractLsb'_append_high _ _ (by omega), extractLsb'_append_high _ _ (by omega),
    extractLsb'_append_low _ _ (by omega)]
  exact congrArg BitVec.toFin (extractLsb'_whole _)

theorem encodeRRI_rB (k : BitVec 3) (a b : RegIdx) (i : BitVec 7) : (fields (encodeRRI k a b i)).rB = b := by
  simp only [fields, encodeRRI]
  rw [extractLsb'_append_high _ _ (by omega), extractLsb'_append_low _ _ (by omega)]
  exact congrArg BitVec.toFin (extractLsb'_whole _)

theorem encodeRRI_imm7 (k : BitVec 3) (a b : RegIdx) (i : BitVec 7) : (fields (encodeRRI k a b i)).imm7 = i := by
  simp only [fields, encodeRRI]
  rw [extractLsb'_append_low _ _ (by omega)]
  exact extractLsb'_whole _

theorem encodeJ_cls (k : BitVec 3) (t : Addr) : (fields (encodeJ k t)).cls = k := by
  simp only [fields, encodeJ]
  rw [extractLsb'_append_high _ _ (by omega)]
  exact extractLsb'_whole _

theorem encodeJ_imm13 (k : BitVec 3) (t : Addr) : (fields (encodeJ k t)).imm13 = t := by
  simp only [fields, encodeJ]
  rw [extractLsb'_append_low _ _ (by omega)]
  exact extractLsb'_whole _

/-- The bits that select a row of class 1 to 7 are the class (R58). -/
theorem and_classMask (w : Word) : w &&& 0xE000 = (fields w).cls ++ 0#13 := by
  apply BitVec.eq_of_getLsbD_eq
  intro i hi
  simp only [fields]
  rw [BitVec.getLsbD_append]
  interval_cases i <;> simp

/-- The bits that select a row of class 0 are the class and the function code (R59). -/
theorem and_funcMask (w : Word) : w &&& 0xE00F = (fields w).cls ++ 0#9 ++ (fields w).func := by
  apply BitVec.eq_of_getLsbD_eq
  intro i hi
  simp only [fields]
  rw [BitVec.getLsbD_append, BitVec.getLsbD_append]
  interval_cases i <;> simp

end Sys2Proof
end

