-- ==== Sys2Proof/Laws/Memory.lean ====
section
/-! SUPPORT. What the memory operations can do (spec/20_memory.md R32): the canonical form is kept, a read
after a write gives the value written, and a write leaves every other cell alone. -/

namespace Sys2Proof.Machine

/-! ### Bytes -/

/-- The canonical form from a later key is the canonical form from an earlier one. -/
theorem Memory.wfFrom_mono {m : Memory} {lo lo' : Nat} (h : lo' ≤ lo) (hm : Memory.wfFrom lo m = true) :
    Memory.wfFrom lo' m = true := by
  cases m with
  | nil => rfl
  | cons p m =>
    obtain ⟨a, b⟩ := p
    simp only [Memory.wfFrom, Bool.and_eq_true, decide_eq_true_eq] at hm ⊢
    exact ⟨⟨⟨by omega, hm.1.1.2⟩, hm.1.2⟩, hm.2⟩

/-- Below its first key a canonical list reads as unlisted. -/
theorem Memory.readByte_below {m : Memory} {lo k : Nat} (hm : Memory.wfFrom lo m = true) (h : k < lo) :
    Memory.readByte m k = Memory.unlisted := by
  induction m generalizing lo with
  | nil => rfl
  | cons p m ih =>
    obtain ⟨a, b⟩ := p
    simp only [Memory.wfFrom, Bool.and_eq_true, decide_eq_true_eq] at hm
    rw [Memory.readByte, if_neg (by omega), ih hm.2 (by omega)]

/-- Beyond the address space a canonical list reads as unlisted. -/
theorem Memory.readByte_beyond {m : Memory} {lo k : Nat} (hm : Memory.wfFrom lo m = true)
    (h : 2 * Config.memCells ≤ k) : Memory.readByte m k = Memory.unlisted := by
  induction m generalizing lo with
  | nil => rfl
  | cons p m ih =>
    obtain ⟨a, b⟩ := p
    simp only [Memory.wfFrom, Bool.and_eq_true, decide_eq_true_eq] at hm
    rw [Memory.readByte, if_neg (by omega), ih hm.2]

/-- A byte write leaves every other byte alone, canonical form or not. -/
theorem Memory.readByte_writeByte_other (m : Memory) {k j : Nat} (v : Byte) (h : j ≠ k) :
    Memory.readByte (Memory.writeByte m k v) j = Memory.readByte m j := by
  induction m with
  | nil =>
    simp only [Memory.writeByte]
    split
    · rfl
    · simp [Memory.readByte, Ne.symm h]
  | cons p m ih =>
    obtain ⟨a, b⟩ := p
    simp only [Memory.writeByte]
    split
    · split
      · rfl
      · rw [Memory.readByte, if_neg (Ne.symm h)]
    · split
      · rename_i ha
        subst ha
        split <;> simp [Memory.readByte, Ne.symm h]
      · simp only [Memory.readByte, ih]

/-- A byte read after a write of that byte gives the value written. -/
theorem Memory.readByte_writeByte_same {m : Memory} {lo k : Nat} (v : Byte) (hm : Memory.wfFrom lo m = true) :
    Memory.readByte (Memory.writeByte m k v) k = v := by
  induction m generalizing lo with
  | nil =>
    simp only [Memory.writeByte]
    split
    · rename_i hv; exact hv.symm
    · simp [Memory.readByte]
  | cons p m ih =>
    obtain ⟨a, b⟩ := p
    have hm' := hm
    simp only [Memory.wfFrom, Bool.and_eq_true, decide_eq_true_eq] at hm
    simp only [Memory.writeByte]
    split
    · split
      · rename_i hv
        rw [Memory.readByte, if_neg (by omega), hv]
        exact Memory.readByte_below hm.2 (by omega)
      · simp [Memory.readByte]
    · split
      · rename_i hk
        split
        · rename_i hv
          rw [hv]
          exact Memory.readByte_below hm.2 (by omega)
        · simp [Memory.readByte]
      · rw [Memory.readByte, if_neg (by omega)]
        exact ih hm.2

/-- A byte write inside the address space keeps the canonical form. -/
theorem Memory.wfFrom_writeByte {m : Memory} {lo k : Nat} (v : Byte) (hm : Memory.wfFrom lo m = true)
    (hlo : lo ≤ k) (hk : k < 2 * Config.memCells) : Memory.wfFrom lo (Memory.writeByte m k v) = true := by
  induction m generalizing lo with
  | nil =>
    simp only [Memory.writeByte]
    split
    · rfl
    · rename_i hv
      simp [Memory.wfFrom, hlo, hk, hv]
  | cons p m ih =>
    obtain ⟨a, b⟩ := p
    have hm' := hm
    simp only [Memory.wfFrom, Bool.and_eq_true, decide_eq_true_eq] at hm
    simp only [Memory.writeByte]
    split
    · split
      · exact hm'
      · rename_i hka hv
        have : Memory.wfFrom (k + 1) ((a, b) :: m) = true := by
          simp only [Memory.wfFrom, Bool.and_eq_true, decide_eq_true_eq]
          exact ⟨⟨⟨by omega, hm.1.1.2⟩, hm.1.2⟩, hm.2⟩
        rw [Memory.wfFrom, this]
        simp [hlo, hk, hv]
    · split
      · rename_i hka
        split
        · exact Memory.wfFrom_mono (by omega) hm.2
        · rename_i hv
          subst hka
          rw [Memory.wfFrom, hm.2]
          simp [hlo, hk, hv]
      · rw [Memory.wfFrom, ih hm.2 (by omega)]
        simp [hm.1.1.1, hm.1.1.2, hm.1.2]

/-- Canonical lists that read alike are equal, so equal memories are equal data. -/
theorem Memory.ext_readByte {m m' : Memory} {lo : Nat} (hm : Memory.wfFrom lo m = true)
    (hm' : Memory.wfFrom lo m' = true) (h : ∀ k, Memory.readByte m k = Memory.readByte m' k) : m = m' := by
  induction m generalizing lo m' with
  | nil =>
    cases m' with
    | nil => rfl
    | cons p m' =>
      obtain ⟨a, b⟩ := p
      simp only [Memory.wfFrom, Bool.and_eq_true, decide_eq_true_eq] at hm'
      have := h a
      simp only [Memory.readByte, if_true] at this
      exact absurd this.symm hm'.1.2
  | cons p m ih =>
    obtain ⟨a, b⟩ := p
    simp only [Memory.wfFrom, Bool.and_eq_true, decide_eq_true_eq] at hm
    cases m' with
    | nil =>
      have := h a
      simp only [Memory.readByte, if_true] at this
      exact absurd this hm.1.2
    | cons p' m' =>
      obtain ⟨a', b'⟩ := p'
      simp only [Memory.wfFrom, Bool.and_eq_true, decide_eq_true_eq] at hm'
      have haa : a = a' := by
        rcases Nat.lt_trichotomy a a' with hlt | heq | hgt
        · have := h a
          rw [Memory.readByte, if_pos rfl, Memory.readByte, if_neg (by omega),
            Memory.readByte_below hm'.2 (by omega)] at this
          exact absurd this hm.1.2
        · exact heq
        · have := h a'
          rw [Memory.readByte, if_neg (by omega), Memory.readByte, if_pos rfl,
            Memory.readByte_below hm.2 (by omega)] at this
          exact absurd this.symm hm'.1.2
      subst haa
      have hbb : b = b' := by simpa [Memory.readByte] using h a
      subst hbb
      have : m = m' := ih hm.2 hm'.2 fun k => by
        by_cases hk : a = k
        · subst hk
          rw [Memory.readByte_below hm.2 (by omega), Memory.readByte_below hm'.2 (by omega)]
        · simpa [Memory.readByte, hk] using h k
      rw [this]

/-! ### Cells -/

/-- A cell write leaves every byte of the other cells alone. -/
theorem memWrite_frame (m : Memory) (a : Addr) (v : Word) {k : Nat} (h0 : k ≠ 2 * a.toNat)
    (h1 : k ≠ 2 * a.toNat + 1) : (memWrite m a v).readByte k = m.readByte k := by
  rw [memWrite, Memory.readByte_writeByte_other _ _ h1, Memory.readByte_writeByte_other _ _ h0]

/-- A cell write leaves every other cell alone. -/
theorem memRead_memWrite_other (m : Memory) {a c : Addr} (v : Word) (h : c ≠ a) :
    memRead (memWrite m a v) c = memRead m c := by
  have : c.toNat ≠ a.toNat := fun e => h (BitVec.eq_of_toNat_eq e)
  rw [memRead, memRead, memWrite_frame m a v (by omega) (by omega), memWrite_frame m a v (by omega) (by omega)]

/-- A cell write keeps the canonical form. -/
theorem memWrite_wf {m : Memory} (a : Addr) (v : Word) (hm : m.wf = true) : (memWrite m a v).wf = true := by
  have := a.isLt
  simp only [Memory.wf] at hm ⊢
  exact Memory.wfFrom_writeByte _ (Memory.wfFrom_writeByte _ hm (by omega) (by simp [Config.memCells]; omega))
    (by omega) (by simp [Config.memCells]; omega)

/-- A cell read after a write of that cell gives the value written (R37). -/
theorem memRead_memWrite_same {m : Memory} (a : Addr) (v : Word) (hm : m.wf = true) :
    memRead (memWrite m a v) a = v := by
  have := a.isLt
  have hm' : Memory.wfFrom 0 m = true := hm
  have hw : Memory.wfFrom 0 (m.writeByte (2 * a.toNat) (v.extractLsb' 0 8)) = true :=
    Memory.wfFrom_writeByte _ hm' (by omega) (by simp [Config.memCells]; omega)
  rw [memRead, memWrite, Memory.readByte_writeByte_same _ hw,
    Memory.readByte_writeByte_other _ _ (by omega : 2 * a.toNat ≠ 2 * a.toNat + 1),
    Memory.readByte_writeByte_same _ hm']
  apply BitVec.eq_of_getLsbD_eq
  intro i hi
  rw [BitVec.getLsbD_append]
  by_cases h : i < 8
  · simp [h]
  · simp only [h, if_false, BitVec.getLsbD_extractLsb']
    have : i - 8 < 8 := by omega
    simp [this, Nat.add_sub_cancel' (by omega : 8 ≤ i)]

/-- The low half of a joined cell. -/
theorem extractLsb'_low (hi lo : Byte) : (hi ++ lo : Word).extractLsb' 0 8 = lo := by
  apply BitVec.eq_of_getLsbD_eq
  intro i hi'
  rw [BitVec.getLsbD_extractLsb', BitVec.getLsbD_append]
  simp [hi']

/-- The high half of a joined cell. -/
theorem extractLsb'_high (hi lo : Byte) : (hi ++ lo : Word).extractLsb' 8 8 = hi := by
  apply BitVec.eq_of_getLsbD_eq
  intro i hi'
  rw [BitVec.getLsbD_extractLsb', BitVec.getLsbD_append]
  simp [hi']

/-- Canonical memories whose cells read alike are equal. -/
theorem Memory.ext_memRead {m m' : Memory} (hm : m.wf = true) (hm' : m'.wf = true)
    (h : ∀ a, memRead m a = memRead m' a) : m = m' := by
  refine Memory.ext_readByte hm hm' fun k => ?_
  by_cases hk : k < 2 * Config.memCells
  · have hlt : k / 2 < 2 ^ 13 := by simp [Config.memCells] at hk; omega
    have ha : (BitVec.ofNat 13 (k / 2)).toNat = k / 2 := by simp; omega
    have hc := h (BitVec.ofNat 13 (k / 2))
    rw [memRead, memRead, ha] at hc
    have hlo := congrArg (fun w : Word => w.extractLsb' 0 8) hc
    have hhi := congrArg (fun w : Word => w.extractLsb' 8 8) hc
    simp only [extractLsb'_low] at hlo
    simp only [extractLsb'_high] at hhi
    rcases Nat.mod_two_eq_zero_or_one k with h2 | h2
    · have : 2 * (k / 2) = k := by omega
      rwa [this] at hlo
    · have : 2 * (k / 2) + 1 = k := by omega
      rwa [this] at hhi
  · rw [Memory.readByte_beyond hm (by omega), Memory.readByte_beyond hm' (by omega)]

/-! ### The image -/

/-- Loading an image keeps the canonical form. -/
theorem loadImage_wf (ws : List Word) {m : Memory} (a : Nat) (hm : m.wf = true) : (loadImage m a ws).wf = true := by
  induction ws generalizing m a with
  | nil => exact hm
  | cons w ws ih => exact ih _ (memWrite_wf _ _ hm)

theorem reset_memory_wf : State.reset.mem.wf = true := rfl

end Sys2Proof.Machine
end

