-- ==== Sys2Proof/Laws/Regs.lean ====
section
/-! SUPPORT. What the register ports can do (spec/10_state.md R12, R13). -/

namespace Sys2Proof.Machine

@[simp] theorem RegFile.read_zero (f : RegFile) : f.read 0 = 0 := rfl

/-- A write to register 0 changes nothing (R13). -/
@[simp] theorem RegFile.write_zero (f : RegFile) (v : Word) : f.write 0 v = f := rfl

/-- A read after a write: the value written, at the register written, unless it is register 0. -/
theorem RegFile.read_write (f : RegFile) (i j : RegIdx) (v : Word) :
    (f.write i v).read j = if i = j ∧ i ≠ 0 then v else f.read j := by
  fin_cases i <;> fin_cases j <;> rfl

/-- Two register files that read alike are equal: register 0 has no storage. -/
theorem RegFile.ext_read (f g : RegFile) (h : ∀ i, f.read i = g.read i) : f = g := by
  obtain ⟨a1, a2, a3, a4, a5, a6, a7⟩ := f
  obtain ⟨b1, b2, b3, b4, b5, b6, b7⟩ := g
  obtain rfl : a1 = b1 := h 1
  obtain rfl : a2 = b2 := h 2
  obtain rfl : a3 = b3 := h 3
  obtain rfl : a4 = b4 := h 4
  obtain rfl : a5 = b5 := h 5
  obtain rfl : a6 = b6 := h 6
  obtain rfl : a7 = b7 := h 7
  rfl

theorem RegFile.write_read_same (f : RegFile) (i : RegIdx) (v : Word) (h : i ≠ 0) : (f.write i v).read i = v := by
  rw [RegFile.read_write, if_pos ⟨rfl, h⟩]

theorem RegFile.write_read_other (f : RegFile) (i j : RegIdx) (v : Word) (h : j ≠ i) :
    (f.write i v).read j = f.read j := by
  rw [RegFile.read_write, if_neg fun k => h k.1.symm]

variable (s : State)

@[simp] theorem State.reg_zero : s.reg 0 = 0 := rfl

theorem State.reg_writeReg (i j : RegIdx) (v : Word) :
    (s.writeReg i v).reg j = if i = j ∧ i ≠ 0 then v else s.reg j := RegFile.read_write s.x i j v

@[simp] theorem State.reg_storeCell (a : Addr) (v : Word) (j : RegIdx) : (s.storeCell a v).reg j = s.reg j := rfl
@[simp] theorem State.reg_cacheLoad (a : Addr) (j : RegIdx) : (s.cacheLoad a).reg j = s.reg j := rfl
@[simp] theorem State.reg_cacheStore (a : Addr) (j : RegIdx) : (s.cacheStore a).reg j = s.reg j := rfl
@[simp] theorem State.reg_takeInvalidFunction (f : InvalidFunc) (j : RegIdx) :
    (s.takeInvalidFunction f).reg j = s.reg j := rfl
@[simp] theorem State.reg_endStep (n : Word) (j : RegIdx) : (s.endStep n).reg j = s.reg j := by
  rw [State.reg, State.endStep_x, State.reg]
@[simp] theorem State.reg_advance (j : RegIdx) : s.advance.reg j = s.reg j := State.reg_endStep s _ j

/-- A register write does what R13 says: the value at a register other than 0, nothing elsewhere. -/
theorem State.writeReg_regUpdate (d : RegIdx) (v : Word) : RegUpdate s (s.writeReg d v) d v := by
  refine ⟨?_, fun r hr => RegFile.write_read_other s.x d r v hr⟩
  rw [State.reg_writeReg]
  by_cases h : d = 0 <;> simp [h]

end Sys2Proof.Machine
end

