-- ==== Sys2Proof/Laws/Step.lean ====
section
/-! SUPPORT. What a step and an instruction can do (spec/40_execution_step.md R70 to R78): every instruction
answers a next state, and a step has four cases. -/

namespace Sys2Proof.Machine

/-- The state a meaning answers: `exec` answers it for every instruction and state, see `exec_eq_next`. -/
def execState (i : Instr) (s : State) : State :=
  match exec i s with
  | .next t => t
  | .fault _ => s
  | .refused _ => s

/-- Every instruction answers a next state from every state: no meaning faults or refuses (R155). -/
theorem exec_eq_next (i : Instr) (s : State) : exec i s = .next (execState i s) := by
  cases i <;> rfl

/-- A next state of `exec` is `execState`. -/
theorem exec_next_iff {i : Instr} {s t : State} : exec i s = .next t ↔ t = execState i s := by
  rw [exec_eq_next, Host.Outcome.next.injEq]
  exact eq_comm

/-- What an instruction that is no load or store and no unused function code can do: at most one register
write and the end of the step; every load and store; every unused function code (R63, R73). -/
theorem execState_cases (i : Instr) (s : State) :
    (∃ n, execState i s = s.endStep n) ∨
    (∃ d v n, (controlSignals i).writes = some d ∧ (controlSignals i).mem = .none ∧ execState i s = (s.writeReg d v).endStep n) ∨
    (∃ a b imm, i = .lw a b imm ∧ execState i s =
      ((s.cacheLoad (s.ea a imm)).writeReg b (memRead s.mem (s.ea a imm))).advance) ∨
    (∃ a b imm, i = .sw a b imm ∧ execState i s =
      ((s.storeCell (s.ea a imm) (s.reg b)).cacheStore (s.ea a imm)).advance) ∨
    (∃ f : InvalidFunc, i = f.instr ∧ f ∉ s.quirkNops ∧ execState i s = s.takeInvalidFunction f) := by
  have hinv (f : InvalidFunc) (h : execState f.instr s = if f ∈ s.quirkNops then s.advance else s.takeInvalidFunction f) :
      (∃ n, execState f.instr s = s.endStep n) ∨
      (f ∉ s.quirkNops ∧ execState f.instr s = s.takeInvalidFunction f) := by
    by_cases hq : f ∈ s.quirkNops
    · exact .inl ⟨_, by rw [h, if_pos hq, State.advance]⟩
    · exact .inr ⟨hq, by rw [h, if_neg hq]⟩
  have hcases (f : InvalidFunc) (h : execState f.instr s = if f ∈ s.quirkNops then s.advance else s.takeInvalidFunction f) :
      (∃ n, execState f.instr s = s.endStep n) ∨
      (∃ g : InvalidFunc, f.instr = g.instr ∧ g ∉ s.quirkNops ∧ execState f.instr s = s.takeInvalidFunction g) :=
    (hinv f h).imp_right fun k => ⟨f, rfl, k⟩
  cases i with
  | add a b c => exact .inr (.inl ⟨c, _, _, rfl, rfl, rfl⟩)
  | sub a b c => exact .inr (.inl ⟨c, _, _, rfl, rfl, rfl⟩)
  | or a b c => exact .inr (.inl ⟨c, _, _, rfl, rfl, rfl⟩)
  | and a b c => exact .inr (.inl ⟨c, _, _, rfl, rfl, rfl⟩)
  | slt a b c => exact .inr (.inl ⟨c, _, _, rfl, rfl, rfl⟩)
  | addi a b imm => exact .inr (.inl ⟨b, _, _, rfl, rfl, rfl⟩)
  | slti a b imm => exact .inr (.inl ⟨b, _, _, rfl, rfl, rfl⟩)
  | jal t => exact .inr (.inl ⟨_, _, _, rfl, rfl, rfl⟩)
  | jr a => exact .inl ⟨_, rfl⟩
  | j t => exact .inl ⟨_, rfl⟩
  | jeq a b imm => exact .inl ⟨_, rfl⟩
  | lw a b imm => exact .inr (.inr (.inl ⟨a, b, imm, rfl, rfl⟩))
  | sw a b imm => exact .inr (.inr (.inr (.inl ⟨a, b, imm, rfl, rfl⟩)))
  | invalidF5 => exact (hcases .f5 rfl).imp_right fun k => .inr (.inr (.inr k))
  | invalidF6 => exact (hcases .f6 rfl).imp_right fun k => .inr (.inr (.inr k))
  | invalidF7 => exact (hcases .f7 rfl).imp_right fun k => .inr (.inr (.inr k))
  | invalidF9 => exact (hcases .f9 rfl).imp_right fun k => .inr (.inr (.inr k))
  | invalidF10 => exact (hcases .f10 rfl).imp_right fun k => .inr (.inr (.inr k))
  | invalidF11 => exact (hcases .f11 rfl).imp_right fun k => .inr (.inr (.inr k))
  | invalidF12 => exact (hcases .f12 rfl).imp_right fun k => .inr (.inr (.inr k))
  | invalidF13 => exact (hcases .f13 rfl).imp_right fun k => .inr (.inr (.inr k))
  | invalidF14 => exact (hcases .f14 rfl).imp_right fun k => .inr (.inr (.inr k))
  | invalidF15 => exact (hcases .f15 rfl).imp_right fun k => .inr (.inr (.inr k))

/-- A step that answers a next state either executed the instruction at `pc` in a running engine, or left a
halted or faulted engine as it was. -/
theorem step_next_cases {s t : State} (h : step s = .next t) :
    (s.run = .running ∧ s.cache.config.legal = true ∧ t = execState (decode s.fetchWord) s) ∨
    (s.run ≠ .running ∧ t = s) := by
  unfold step at h
  split at h
  · rename_i hr
    split at h
    · rename_i hl
      exact .inl ⟨hr, hl, exec_next_iff.mp h⟩
    · cases h
  · rename_i hr
    cases h
    exact .inr ⟨by simp [hr], rfl⟩
  · rename_i hr
    cases h
    exact .inr ⟨by simp [hr], rfl⟩

end Sys2Proof.Machine
end

