-- ==== Sys2Proof/Laws/Events.lean ====
section
/-! SUPPORT. What the event output can show (spec/46_cache_hierarchy.md R130 to R136), and that the history of a
run follows the machine. -/

namespace Sys2Proof.Machine

variable (s : State)

@[simp] theorem State.eventsOf_lw (a b : RegIdx) (imm : BitVec 7) :
    s.eventsOf (.lw a b imm) = (s.cache.load s.pc (s.ea a imm)).2 := rfl

@[simp] theorem State.eventsOf_sw (a b : RegIdx) (imm : BitVec 7) :
    s.eventsOf (.sw a b imm) = (s.cache.store s.pc (s.ea a imm)).2 := rfl

/-- Only a load or a store emits (R134). -/
theorem State.eventsOf_eq_nil {i : Instr} (h : noMemoryAccess i) : s.eventsOf i = [] := by
  cases i with
  | lw a b imm => exact absurd rfl (h.1 a b imm)
  | sw a b imm => exact absurd rfl (h.2 a b imm)
  | _ => rfl

/-- The output of a step that executes an instruction is that instruction's (R7, R133). -/
theorem State.stepEvents_running {s : State} (hr : s.run = .running) (hl : s.cache.config.legal = true) :
    s.stepEvents = s.eventsOf (decode s.fetchWord) := by
  simp [State.stepEvents, hr, hl]

/-- No step, no event (R77). -/
theorem State.stepEvents_stopped {s : State} (h : s.run ≠ .running) : s.stepEvents = [] := by
  unfold State.stepEvents
  split
  · exact absurd ‹_› h
  · rfl
  · rfl

/-- A step of the history is a step of the machine with its output appended (R26). -/
theorem History.step_eq_next {s t : State} (h : Machine.step s = .next t) (log : List Event) :
    History.step { state := s, log := log } = .next { state := t, log := log ++ s.stepEvents } := by
  simp [History.step, h]

/-- A history steps exactly when its machine does (R26). -/
theorem History.step_next_iff {h h' : History} :
    h.step = .next h' ↔ Machine.step h.state = .next h'.state ∧ h'.log = h.log ++ h.state.stepEvents := by
  obtain ⟨s, log⟩ := h
  obtain ⟨t, log'⟩ := h'
  cases hs : Machine.step s <;> simp [History.step, hs, eq_comm]

end Sys2Proof.Machine
end

