-- ==== Sys2Proof/Laws/PerInstr.lean ====
section
/-! SUPPORT. One lemma per instruction: its encoding lies in its row of spec/opcode_table.json. -/

namespace Sys2Proof.Laws.TableRow

/-- The encoding agrees with the `mask` and `match` columns of the instruction's row. -/
def Statement (i : Instr) : Prop := encode i &&& i.op.mask = i.op.pattern

/-- A word of format RRR selects the row of its function code. -/
theorem encodeRRR_row (a b c : RegIdx) (f : BitVec 4) : encodeRRR a b c f &&& 0xE00F = 0#12 ++ f := by
  rw [and_funcMask, encodeRRR_cls, encodeRRR_func]
  rfl

/-- A word of format RRI selects the row of its class. -/
theorem encodeRRI_row (k : BitVec 3) (a b : RegIdx) (i : BitVec 7) :
    encodeRRI k a b i &&& 0xE000 = k ++ 0#13 := by
  rw [and_classMask, encodeRRI_cls]

/-- A word of format J selects the row of its class. -/
theorem encodeJ_row (k : BitVec 3) (t : Addr) : encodeJ k t &&& 0xE000 = k ++ 0#13 := by
  rw [and_classMask, encodeJ_cls]

theorem add (a b c : RegIdx) : Statement (.add a b c) := encodeRRR_row a b c _
theorem sub (a b c : RegIdx) : Statement (.sub a b c) := encodeRRR_row a b c _
theorem or (a b c : RegIdx) : Statement (.or a b c) := encodeRRR_row a b c _
theorem and (a b c : RegIdx) : Statement (.and a b c) := encodeRRR_row a b c _
theorem slt (a b c : RegIdx) : Statement (.slt a b c) := encodeRRR_row a b c _
theorem jr (a : RegIdx) : Statement (.jr a) := encodeRRR_row a 0 0 _
theorem addi (a b : RegIdx) (i : BitVec 7) : Statement (.addi a b i) := encodeRRI_row _ a b i
theorem lw (a b : RegIdx) (i : BitVec 7) : Statement (.lw a b i) := encodeRRI_row _ a b i
theorem sw (a b : RegIdx) (i : BitVec 7) : Statement (.sw a b i) := encodeRRI_row _ a b i
theorem jeq (a b : RegIdx) (i : BitVec 7) : Statement (.jeq a b i) := encodeRRI_row _ a b i
theorem slti (a b : RegIdx) (i : BitVec 7) : Statement (.slti a b i) := encodeRRI_row _ a b i
theorem j (t : Addr) : Statement (.j t) := encodeJ_row _ t
theorem jal (t : Addr) : Statement (.jal t) := encodeJ_row _ t
theorem invalidF5 : Statement .invalidF5 := encodeRRR_row 0 0 0 _
theorem invalidF6 : Statement .invalidF6 := encodeRRR_row 0 0 0 _
theorem invalidF7 : Statement .invalidF7 := encodeRRR_row 0 0 0 _
theorem invalidF9 : Statement .invalidF9 := encodeRRR_row 0 0 0 _
theorem invalidF10 : Statement .invalidF10 := encodeRRR_row 0 0 0 _
theorem invalidF11 : Statement .invalidF11 := encodeRRR_row 0 0 0 _
theorem invalidF12 : Statement .invalidF12 := encodeRRR_row 0 0 0 _
theorem invalidF13 : Statement .invalidF13 := encodeRRR_row 0 0 0 _
theorem invalidF14 : Statement .invalidF14 := encodeRRR_row 0 0 0 _
theorem invalidF15 : Statement .invalidF15 := encodeRRR_row 0 0 0 _

end Sys2Proof.Laws.TableRow
end

