-- ==== Sys2Proof/Tests/Slice0.lean ====
section
/-! SUPPORT. Tests. Expected values are those of spec/95_test_vectors.md (its vector is named beside each test)
or are worked out by hand from the rule named. The theorems `test_witness_…` show, for each statement of
Certificates/Slice0/Obligations.lean that has hypotheses, concrete values that meet them together. -/

namespace Sys2Proof.Machine.Tests

/-! ### What the package accepts (R121, R42; V-CACHE-9) -/

theorem test_wf_size_not_a_multiple : Geometry.legal ⟨4, 1, 3⟩ = false := by decide
theorem test_wf_size_below_one_row : Geometry.legal ⟨2, 2, 2⟩ = false := by decide
theorem test_wf_size_zero : Geometry.legal ⟨0, 1, 1⟩ = false := by decide
theorem test_wf_assoc_zero : Geometry.legal ⟨4, 0, 2⟩ = false := by decide
theorem test_wf_block_zero : Geometry.legal ⟨4, 1, 0⟩ = false := by decide
theorem test_wf_size_five : Geometry.legal ⟨5, 2, 2⟩ = false := by decide
theorem test_wf_second_level_illegal : CoreConfig.legal ⟨.two ⟨2, 1, 1⟩ ⟨4, 1, 3⟩, []⟩ = false := by decide
theorem test_wf_first_level_illegal : CoreConfig.legal ⟨.two ⟨4, 1, 3⟩ ⟨2, 1, 1⟩, []⟩ = false := by decide
theorem test_wf_legal : (Geometry.legal ⟨1, 1, 1⟩ && Geometry.legal ⟨8192, 1, 1⟩ && Geometry.legal ⟨16384, 1, 16384⟩
    && CoreConfig.legal ⟨.none, [.f5]⟩) = true := by decide
theorem test_wf_image_too_long : imageFits (List.replicate 8193 0) = false := by
  rw [imageFits, List.length_replicate]; decide
theorem test_wf_image_full : imageFits (List.replicate 8192 0) = true := by
  rw [imageFits, List.length_replicate]; decide
theorem test_reset_refuses_geometry :
    State.resetWith ⟨.one ⟨4, 1, 3⟩, []⟩ [] = .error .illegalConfiguration := rfl
theorem test_reset_refuses_image :
    State.resetWith CoreConfig.default (List.replicate 8193 0) = .error .imageTooLong := by
  rw [State.resetWith, test_wf_image_too_long]; rfl

/-- The memory list's canonical form refuses a wrong order, a listed zero, a key outside the space. -/
theorem test_wf_memory : (Memory.wf [(2, 1), (1, 1)], Memory.wf [(1, 0)], Memory.wf [(16384, 1)],
    Memory.wf [(0, 1), (16383, 1)]) = (false, false, false, true) := by decide

/-! ### Decoding (2.1 of the vectors; R52 to R62) -/

/-- V-DEC-2 to V-DEC-6. -/
theorem test_decode_register_arithmetic :
    decode 0b0000010100110000 = .add 1 2 3 ∧ decode 0b0000010100110001 = .sub 1 2 3 ∧
    decode 0b0000010100110010 = .or 1 2 3 ∧ decode 0b0000010100110011 = .and 1 2 3 ∧
    decode 0b0000010100110100 = .slt 1 2 3 := by decide

/-- V-DEC-7, V-DEC-8: bits [9:4] are ignored. -/
theorem test_decode_jr : decode 0b0001110000001000 = .jr 7 ∧ decode 0b0001111111111000 = .jr 7 := by decide

/-- V-DEC-13 to V-DEC-19. -/
theorem test_decode_immediates_and_jumps :
    decode 0b0010000010000101 = .addi 0 1 5 ∧ decode 0b0010010011111111 = .addi 1 1 127 ∧
    decode 0b0100000000000011 = .j 3 ∧ decode 0b0101111111111111 = .j 8191 ∧
    decode 0b0110000000001010 = .jal 10 := by decide

/-- V-DEC-20 to V-DEC-27. -/
theorem test_decode_memory_and_compare :
    decode 0b1000010100000100 = .lw 1 2 4 ∧ decode 0b1010010101111111 = .sw 1 2 127 ∧
    decode 0b1100010100000010 = .jeq 1 2 2 ∧ decode 0b1100010001111110 = .jeq 1 0 126 ∧
    decode 0b1110010100001010 = .slti 1 2 10 ∧ decode 0b1111111111111111 = .slti 7 7 127 := by decide

/-- V-DEC-9 to V-DEC-12 and R60: the ten unused codes, register fields at all ones, zero and between. -/
theorem test_decode_invalid :
    decode 0b0000000000000101 = .invalidF5 ∧ decode 0b0001111111110110 = .invalidF6 ∧
    decode 0b0000010100110111 = .invalidF7 ∧ decode 0b0000000000001001 = .invalidF9 ∧
    decode 0b0000010100111010 = .invalidF10 ∧ decode 0b0001110000001011 = .invalidF11 ∧
    decode 0b0000001110001100 = .invalidF12 ∧ decode 0b0000000001111101 = .invalidF13 ∧
    decode 0b0000010000011110 = .invalidF14 ∧ decode 0b0001111111111111 = .invalidF15 := by decide

/-- V-DEC-23: the raw fields of a branch word. -/
theorem test_decode_fields : fields 0xC502 = ⟨6, 1, 2, 0, 2, 2, 1282, 2⟩ := by decide

/-- S3, the source's own vector. -/
theorem test_sign_extension : sext16 0x40 = 0xFFC0 ∧ sext16 0x3F = 0x003F := by decide

/-- Only the bits the table gives are read. -/
theorem test_decode_table_word : decodeTableWord 16 0x10531 = some (.sub 1 2 3) := by decide

/-! ### One step -/

/-- A running engine under the default configuration, with one instruction word at `pc`. -/
def machineAt (pc : Addr) (w : Word) (x : RegFile) : State :=
  ({ State.reset with pc := pc, x := x } : State).withFetchWord 16 w.toNat

/-- Registers 1, 2 and 7; the others 0. -/
def regs (r1 r2 r7 : Word) : RegFile := { RegFile.zero with r1 := r1, r2 := r2, r7 := r7 }

/-- A running engine at cell 0 with word `w`, `x[1] = 6`, `x[2] = 6` and the cache of a configuration. -/
def cached (cfg : CacheConfig) (w : Word) : State := { machineAt 0 w (regs 6 6 0) with cache := Hierarchy.reset cfg }

/-- The next state, where a step answers one. -/
def nextOf (s : State) : Option State :=
  match step s with
  | .next t => some t
  | .fault _ => none
  | .refused _ => none

/-- Register `r`, `pc` and `run` after one step. -/
def shows (s : State) (r : RegIdx) : Option (Word × Addr × RunState) :=
  (nextOf s).map fun t => (t.reg r, t.pc, t.run)

/-- V-ALU-2. -/
theorem test_add_wraps : shows (machineAt 10 0x0530 (regs 0xFFFF 1 0)) 3 = some (0, 11, .running) := by decide
/-- V-EXEC-4: a source is the destination. -/
theorem test_add_onto_itself : shows (machineAt 0 0x0490 (regs 0x8001 0 0)) 1 = some (2, 1, .running) := by decide
/-- V-ALU-4: the left operand is `rA`. -/
theorem test_sub_wraps : shows (machineAt 10 0x0531 (regs 0 1 0)) 3 = some (0xFFFF, 11, .running) := by decide
/-- V-ALU-8. -/
theorem test_sub_order : shows (machineAt 10 0x0531 (regs 0xF0F0 0x0FF0 0)) 3 = some (0xE100, 11, .running) := by decide
/-- V-ALU-8. -/
theorem test_or : shows (machineAt 10 0x0532 (regs 0xF0F0 0x0FF0 0)) 3 = some (0xFFF0, 11, .running) := by decide
/-- V-ALU-8. -/
theorem test_and : shows (machineAt 10 0x0533 (regs 0xF0F0 0x0FF0 0)) 3 = some (0x00F0, 11, .running) := by decide
/-- V-ALU-5: unsigned. -/
theorem test_slt_unsigned : shows (machineAt 10 0x0534 (regs 0x7FFF 0x8000 0)) 3 = some (1, 11, .running) := by decide
/-- V-ALU-6. -/
theorem test_slt_order : shows (machineAt 10 0x0534 (regs 0x8000 0x7FFF 0)) 3 = some (0, 11, .running) := by decide
/-- V-IMM-6. -/
theorem test_addi_negative : shows (machineAt 0 0x257F (regs 0x8000 0 0)) 2 = some (0x7FFF, 1, .running) := by decide
/-- V-EXEC-3: register 0 as the destination. -/
theorem test_addi_to_zero : shows (machineAt 0 0x2005 RegFile.zero) 0 = some (0, 1, .running) := by decide
/-- V-IMM-11: "-1" is 65535. -/
theorem test_slti_extends_then_unsigned : shows (machineAt 0 0xE57F (regs 5 0 0)) 2 = some (1, 1, .running) := by decide
/-- V-IMM-9: equal is not less. -/
theorem test_slti_equal : shows (machineAt 0 0xE50A (regs 10 0 0)) 2 = some (0, 1, .running) := by decide
/-- V-CT-2. -/
theorem test_j_halts : shows (machineAt 3 0x4003 RegFile.zero) 0 = some (0, 3, .halted) := by decide
/-- V-CT-4. -/
theorem test_j_far : shows (machineAt 5 0x5FFF RegFile.zero) 0 = some (0, 8191, .running) := by decide
/-- V-CT-6: the link at the last cell is not reduced. -/
theorem test_jal_link : shows (machineAt 8191 0x6005 RegFile.zero) 7 = some (0x2000, 5, .running) := by decide
/-- V-CT-7 (D13). -/
theorem test_jal_halts_with_link : shows (machineAt 6 0x6006 RegFile.zero) 7 = some (7, 6, .halted) := by decide
/-- V-CT-9. -/
theorem test_jr_low_bits : shows (machineAt 12 0x1C08 (regs 0 0 0xE005)) 7 = some (0xE005, 5, .running) := by decide
/-- V-CT-10. -/
theorem test_jr_halts : shows (machineAt 0 0x1C08 (regs 0 0 0x2000)) 7 = some (0x2000, 0, .halted) := by decide
/-- V-CT-20. -/
theorem test_jeq_wraps_back : shows (machineAt 0 0xC540 RegFile.zero) 0 = some (0, 8129, .running) := by decide
/-- V-CT-24: not taken at the last cell. -/
theorem test_jeq_not_taken : shows (machineAt 8191 0xC502 (regs 1 2 0)) 0 = some (0, 0, .running) := by decide
/-- V-LS-3: the address wraps. -/
theorem test_lw_wraps : shows ((machineAt 20 0x8500 (regs 0x2003 0 0)).storeCell 3 0x0042) 2 = some (0x0042, 21, .running) := by
  decide
/-- V-LS-5 (D27): the event and the update happen although the value is discarded. -/
theorem test_lw_to_zero_queries :
    (cached (.one ⟨2, 1, 1⟩) 0x8000).stepEvents = [⟨.L1, .miss, 0, 0, 0⟩] ∧
    (nextOf (cached (.one ⟨2, 1, 1⟩) 0x8000)).map (fun t => (t.reg 0, t.cache)) =
      some (0, .one ⟨⟨2, 1, 1⟩, [[⟨true, 0, 0⟩], [⟨false, 0, 0⟩]]⟩) := by decide
/-- V-LS-2: both bytes land in the one cell. -/
theorem test_sw : (nextOf (machineAt 20 0xA57F (regs 0x0100 0xCAFE 0))).map
    (fun t => (memRead t.mem 255, memRead t.mem 254, memRead t.mem 256, t.pc)) = some (0xCAFE, 0, 0, 21) := by decide
/-- V-LS-6: a store to its own cell. -/
theorem test_sw_own_cell : (nextOf (machineAt 9 0xA500 (regs 9 0x4000 0))).map
    (fun t => (memRead t.mem 9, t.pc, t.run)) = some (0x4000, 10, .running) := by decide

/-- A class-0 word with the given function code, at cell 4 (V-FAULT-1, V-FAULT-3). -/
def invalidAt (f : InvalidFunc) : State := machineAt 4 (wordRRR 1 2 3 f.code.toNat) (regs 1 2 7)

/-- The ten unused codes. -/
def unusedCodes : List InvalidFunc := [.f5, .f6, .f7, .f9, .f10, .f11, .f12, .f13, .f14, .f15]

/-- V-FAULT-1 for each code: only `run` and the fault record change. -/
theorem test_invalid_faults : ∀ f ∈ unusedCodes, nextOf (invalidAt f) =
    some { invalidAt f with run := .faulted, fault := some ⟨.invalidFunction, f.code, 4⟩ } := by decide

/-- V-FAULT-2 for each code. -/
theorem test_invalid_quirk : ∀ f ∈ unusedCodes, nextOf { invalidAt f with quirkNops := [f] } =
    some { invalidAt f with quirkNops := [f], pc := 5 } := by decide

/-- V-FAULT-4: a quirk no-op does not halt; the last cell goes on at 0 (V-EXEC-7's wrap). -/
theorem test_quirk_wraps : (nextOf { machineAt 8191 0x0005 RegFile.zero with quirkNops := [.f5] }).map
    (fun t => (t.pc, t.run)) = some (0, .running) := by decide

/-- R77. -/
theorem test_halted_stays : nextOf { machineAt 3 0x2085 RegFile.zero with run := .halted } =
    some { machineAt 3 0x2085 RegFile.zero with run := .halted } := by decide

/-- P5, steps 1 and 2: two levels, a load that misses in both and a store to both. -/
theorem test_two_levels :
    ({ machineAt 0 0x8086 RegFile.zero with cache := Hierarchy.reset (.two ⟨2, 1, 1⟩ ⟨8, 2, 2⟩) } : State).stepEvents =
      [⟨.L1, .miss, 0, 6, 0⟩, ⟨.L2, .miss, 0, 6, 1⟩] ∧
    ({ machineAt 1 0xA083 RegFile.zero with cache := Hierarchy.reset (.two ⟨2, 1, 1⟩ ⟨8, 2, 2⟩) } : State).stepEvents =
      [⟨.L1, .sw, 1, 3, 1⟩, ⟨.L2, .sw, 1, 3, 1⟩] := by decide

/-- R26: the history appends the step's output to its log. -/
theorem test_history_appends :
    (match History.step ⟨cached (.one ⟨2, 1, 1⟩) 0x8000, [⟨.L1, .sw, 7, 7, 1⟩]⟩ with
      | .next h => some h.log
      | .fault _ => none
      | .refused _ => none) = some [⟨.L1, .sw, 7, 7, 1⟩, ⟨.L1, .miss, 0, 0, 0⟩] := by decide

/-- R26, R136: the event output is no state: a load that hits the one line of a cache changes `pc` alone. -/
theorem test_load_hit_changes_pc_alone :
    nextOf { machineAt 0 0x8000 RegFile.zero with cache := .one ⟨⟨1, 1, 1⟩, [[⟨true, 0, 0⟩]]⟩ } =
    some { machineAt 0 0x8000 RegFile.zero with cache := .one ⟨⟨1, 1, 1⟩, [[⟨true, 0, 0⟩]]⟩, pc := 1 } := by decide

/-! ### Cache and decomposer -/

/-- S5, the source's own vector. -/
theorem test_lru : loadSet [⟨true, 5, 3⟩, ⟨true, 6, 1⟩] 7 = (.miss, [⟨true, 7, 0⟩, ⟨true, 6, 2⟩]) := by decide

/-- V-CACHE-2, first to third access: ties go to the lowest line. -/
theorem test_fill_and_hit :
    loadSet [⟨false, 0, 0⟩, ⟨false, 0, 0⟩] 0 = (.miss, [⟨true, 0, 0⟩, ⟨false, 0, 1⟩]) ∧
    loadSet [⟨true, 0, 0⟩, ⟨false, 0, 1⟩] 1 = (.miss, [⟨true, 0, 1⟩, ⟨true, 1, 0⟩]) ∧
    loadSet [⟨true, 0, 1⟩, ⟨true, 1, 0⟩] 0 = (.hit, [⟨true, 0, 0⟩, ⟨true, 1, 1⟩]) := by decide

/-- V-CACHE-6, second and third access: a store makes no lookup; a hit is at the lowest matching line. -/
theorem test_store_duplicates :
    installTag [⟨true, 10, 0⟩, ⟨false, 0, 1⟩, ⟨false, 0, 1⟩] 10 = [⟨true, 10, 1⟩, ⟨true, 10, 0⟩, ⟨false, 0, 2⟩] ∧
    loadSet [⟨true, 10, 1⟩, ⟨true, 10, 0⟩, ⟨false, 0, 2⟩] 10 =
      (.hit, [⟨true, 10, 0⟩, ⟨true, 10, 1⟩, ⟨false, 0, 3⟩]) := by decide

/-- V-DECOMP-4, V-DECOMP-8, V-DECOMP-10. -/
theorem test_decompose : decompose 40 2 2 = ⟨20, 0, 10, 0⟩ ∧ decompose 3 2 2 = ⟨1, 1, 0, 1⟩ ∧
    decompose 8191 3 2 = ⟨2730, 0, 1365, 1⟩ := by decide

/-- V-EA-2, V-EA-3, V-EA-7. -/
theorem test_effective_address : (machineAt 0 0 (regs 0x0064 0 0)).ea 1 0x7F = 99 ∧ (machineAt 0 0 (regs 0 0 0)).ea 1 0x7F = 8191 ∧
    (machineAt 0 0 (regs 0xE005 0 0)).ea 1 0x7C = 1 := by decide

/-- S7, the source's image: the reset places its words from cell 0 on. -/
theorem test_image : (match State.resetWith CoreConfig.default [0x2085, 0x2103, 0x0530, 0x4003] with
    | .ok s => some (memRead s.mem 0, memRead s.mem 3, memRead s.mem 4, s.mem.wf)
    | .error _ => none) = some (0x2085, 0x4003, 0, true) := by decide

/-! ### Witnesses: values that meet the hypotheses of each statement together -/

/-- A one-level and a two-level configuration (V-CACHE-5's geometries). -/
def oneLevel : CacheConfig := .one ⟨2, 1, 1⟩
def twoLevel : CacheConfig := .two ⟨2, 1, 1⟩ ⟨4, 2, 1⟩

/-- The invariant of a running state, part by part. -/
theorem inv_of_running {s : State} (hr : s.run = .running) (hf : s.fault = none) (hm : s.mem.wf = true)
    (hs : s.cache.Shaped) : s.Inv where
  memory := hm
  shaped := hs
  fault := ⟨fun _ => hf, fun h => by rw [hr] at h; cases h⟩
  halt := fun h => by rw [hr] at h; cases h

theorem shaped_twoLevel : (Hierarchy.reset twoLevel).Shaped := by
  intro l hl
  simp only [Hierarchy.reset, twoLevel, Hierarchy.levels, List.mem_cons, List.not_mem_nil, or_false] at hl
  rcases hl with rfl | rfl <;> exact ⟨by decide, by decide, by decide⟩

theorem recency_twoLevel : (Hierarchy.reset twoLevel).RecencyInv := by
  intro l hl S hS
  refine ⟨0, ?_⟩
  simp only [Hierarchy.reset, twoLevel, Hierarchy.levels, List.mem_cons, List.not_mem_nil, or_false] at hl
  have hz : ∀ x ∈ S, x = Line.reset := by
    rcases hl with rfl | rfl <;> (rw [List.eq_of_mem_replicate hS]; intro x hx; exact List.eq_of_mem_replicate hx)
  have hp : ∀ R : Line → Line → Prop, R Line.reset Line.reset → S.Pairwise R := fun R h =>
    List.pairwise_of_forall_mem_list fun a ha b hb => by rw [hz a ha, hz b hb]; exact h
  exact {
    invalid := fun x hx _ => by rw [hz x hx]; rfl
    valid := fun x hx h => by rw [hz x hx] at h; cases h
    different := hp _ (by decide)
    suffix := hp _ (by decide)
    latest := fun h => absurd h (by decide) }

theorem unique_twoLevel : (Hierarchy.reset twoLevel).UniqueTags := by
  intro l hl S hS
  simp only [Hierarchy.reset, twoLevel, Hierarchy.levels, List.mem_cons, List.not_mem_nil, or_false] at hl
  rcases hl with rfl | rfl <;> (rw [List.eq_of_mem_replicate hS]; unfold uniqueTags; decide)

theorem test_witness_StepRunsTheDecodedInstruction : (cached twoLevel 0x8080).run = .running ∧
    (cached twoLevel 0x8080).cache.config.legal = true ∧
    decode (memRead (cached twoLevel 0x8080).mem (cached twoLevel 0x8080).pc) = .lw 0 1 0 := by decide

theorem test_witness_TerminalStatesNeverChange :
    ({ State.reset with run := .halted } : State).run = .halted ∧
    ({ State.reset with run := .faulted } : State).run = .faulted := by decide

/-- One witness for each clause: a legal geometry at each edge, an illegal configuration, an illegal state. -/
theorem test_witness_IllegalGeometryIsRefused :
    Geometry.legal ⟨1, 1, 1⟩ = true ∧ Geometry.legal ⟨16384, 1, 16384⟩ = true ∧ CacheConfig.legal (.one ⟨4, 1, 3⟩) = false ∧
    (cached (.one ⟨4, 1, 3⟩) 0).run = .running ∧ (cached (.one ⟨4, 1, 3⟩) 0).cache.config.legal = false := by decide

theorem test_witness_RunningEngineHasANextStep :
    (cached oneLevel 0x0005).run = .running ∧ (cached oneLevel 0x0005).cache.config.legal = true := by decide

/-- The longest image, under two levels, and no image, under none. -/
theorem test_witness_ResetGivesTheResetValues :
    twoLevel.legal = true ∧ (List.replicate 8192 (0 : Word)).length ≤ 8192 ∧ CacheConfig.none.legal = true ∧
    ([] : List Word).length ≤ 8192 := ⟨by decide, by rw [List.length_replicate], rfl, by decide⟩

theorem test_witness_EveryResetSatisfiesTheInvariants : ∃ t, State.resetWith ⟨twoLevel, [.f5]⟩ [0x2085] = .ok t := ⟨_, rfl⟩

/-- A load that misses in both levels; a fault; a halt. -/
theorem test_witness_EveryStepKeepsTheInvariant :
    ((cached twoLevel 0x8080).Inv ∧ ∃ t, step (cached twoLevel 0x8080) = .next t ∧ t.run = .running) ∧
    ((cached twoLevel 0x0005).Inv ∧ ∃ t, step (cached twoLevel 0x0005) = .next t ∧ t.run = .faulted) ∧
    ((cached twoLevel 0x4000).Inv ∧ ∃ t, step (cached twoLevel 0x4000) = .next t ∧ t.run = .halted) :=
  ⟨⟨inv_of_running rfl rfl (by decide) shaped_twoLevel, _, rfl, rfl⟩,
    ⟨inv_of_running rfl rfl (by decide) shaped_twoLevel, _, rfl, rfl⟩,
    inv_of_running rfl rfl (by decide) shaped_twoLevel, _, rfl, rfl⟩

theorem test_witness_EveryStepKeepsTheRecencyInvariant : (cached twoLevel 0xA080).cache.Shaped ∧
    (cached twoLevel 0xA080).cache.RecencyInv ∧ ∃ t, step (cached twoLevel 0xA080) = .next t :=
  ⟨shaped_twoLevel, recency_twoLevel, _, rfl⟩

theorem test_witness_StepsOtherThanStoresKeepTagsUnique : (cached twoLevel 0x8080).cache.UniqueTags ∧
    (∀ a b imm, decode (cached twoLevel 0x8080).fetchWord ≠ .sw a b imm) ∧ ∃ t, step (cached twoLevel 0x8080) = .next t := by
  refine ⟨unique_twoLevel, fun a b imm => ?_, _, rfl⟩
  rw [show decode (cached twoLevel 0x8080).fetchWord = .lw 0 1 0 by decide]
  exact Instr.noConfusion

theorem test_witness_ConfigurationNeverChanges : ∃ t, step (cached twoLevel 0xA080) = .next t := ⟨_, rfl⟩

/-- A machine without a cache and one with two levels. -/
theorem test_witness_CacheNeverAffectsTheArchitecture : SameArchitecture (cached .none 0x8080) (cached twoLevel 0x8080) ∧
    (∃ t, step (cached .none 0x8080) = .next t) ∧ ∃ t, step (cached twoLevel 0x8080) = .next t :=
  ⟨⟨rfl, rfl, rfl, rfl, rfl, rfl⟩, ⟨_, rfl⟩, _, rfl⟩

theorem test_witness_RunsAgreeUnderEveryConfiguration :
    (∃ s, State.resetWith ⟨.none, [.f7]⟩ [0x8006, 0x4001] = .ok s) ∧
    ∃ s, State.resetWith ⟨twoLevel, [.f7]⟩ [0x8006, 0x4001] = .ok s := ⟨⟨_, rfl⟩, _, rfl⟩

/-- A step that emits, and a run of two steps. -/
theorem test_witness_EventOutputIsWriteOnly : (∃ t, step (cached twoLevel 0xA080) = .next t) ∧
    (cached twoLevel 0xA080).stepEvents ≠ [] ∧ ∃ t, Sys2Proof.core.run 2 (cached twoLevel 0xA080) = .next t :=
  ⟨⟨_, rfl⟩, by decide, _, rfl⟩

/-- One witness for each clause: no memory access; no level; one and two levels, which serve `lw` and `sw`. -/
theorem test_witness_EventsFollowTheTable : noMemoryAccess (.j 0) ∧ (cached .none 0).cache = .none ∧
    (∃ l1, (cached oneLevel 0).cache = .one l1) ∧ ∃ l1 l2, (cached twoLevel 0).cache = .two l1 l2 :=
  ⟨⟨(fun _ _ _ h => by cases h), (fun _ _ _ h => by cases h)⟩, rfl, ⟨_, rfl⟩, _, _, rfl⟩

/-- V-FAULT-3: the highest function code. -/
theorem test_witness_FaultingStepChangesNothingElse :
    (cached oneLevel 0x1FFF).run = .running ∧ (cached oneLevel 0x1FFF).cache.config.legal = true ∧
    (cached oneLevel 0x1FFF).fetchWord.toNat / 8192 = 0 ∧
    (cached oneLevel 0x1FFF).fetchWord.toNat % 16 = InvalidFunc.f15.code.toNat ∧
    InvalidFunc.f15 ∉ (cached oneLevel 0x1FFF).quirkNops := by decide

/-- A step that halts and one that does not. -/
theorem test_witness_HaltsExactlyOnASelfTransfer :
    ((cached .none 0xC57F).run = .running ∧ ∃ t, step (cached .none 0xC57F) = .next t ∧ t.run = .halted) ∧
    ((cached .none 0xC500).run = .running ∧ ∃ t, step (cached .none 0xC500) = .next t ∧ t.run = .running) :=
  ⟨⟨rfl, _, rfl, by decide⟩, rfl, _, rfl, by decide⟩

/-- One instruction for each kind of control signal: a register write, a load, a store, none. -/
theorem test_witness_OnlyTheListedStateIsWritten :
    (controlSignals (.add 1 2 3)).writes ≠ some 4 ∧ (controlSignals (.lw 1 2 0)).mem ≠ .write ∧
    (controlSignals (.sw 1 2 0)).mem = .write ∧ (controlSignals (.jeq 1 2 0)).cache = .none ∧
    ∃ t, exec (.sw 1 2 0) (cached oneLevel 0) = .next t := ⟨by decide, by decide, rfl, rfl, _, rfl⟩

/-- Two states that differ in a register the instruction does not read. -/
theorem test_witness_OnlyTheListedRegistersAreRead :
    (∀ r ∈ (controlSignals (.add 1 2 3)).reads,
      (machineAt 0 0 (regs 5 6 0)).reg r = (machineAt 0 0 (regs 5 6 9)).reg r) ∧
    { machineAt 0 0 (regs 5 6 0) with x := (machineAt 0 0 (regs 5 6 9)).x } = machineAt 0 0 (regs 5 6 9) ∧
    (∃ t, exec (.add 1 2 3) (machineAt 0 0 (regs 5 6 0)) = .next t) ∧
    ∃ t, exec (.add 1 2 3) (machineAt 0 0 (regs 5 6 9)) = .next t := ⟨by decide, by decide, ⟨_, rfl⟩, _, rfl⟩

/-- `sw $2,0($1)` at the last cell with `x[1] = 0`: the next cell is cell 0. -/
theorem test_witness_AStoredInstructionRunsNext :
    (machineAt 8191 0xA500 (regs 0 0x2085 0)).mem.wf = true ∧ (machineAt 8191 0xA500 (regs 0 0x2085 0)).run = .running ∧
    (machineAt 8191 0xA500 (regs 0 0x2085 0)).cache.config.legal = true ∧
    decode (machineAt 8191 0xA500 (regs 0 0x2085 0)).fetchWord = .sw 1 2 0 ∧
    (machineAt 8191 0xA500 (regs 0 0x2085 0)).ea 1 0 = (machineAt 8191 0xA500 (regs 0 0x2085 0)).pc + 1 ∧
    ∃ t, step (machineAt 8191 0xA500 (regs 0 0x2085 0)) = .next t :=
  ⟨by decide, by decide, by decide, by decide, by decide, _, rfl⟩

theorem test_witness_ALoadReadsTheStoreBeforeIt :
    (cached oneLevel 0).mem.wf = true ∧ (3 : RegIdx) ≠ 0 ∧ ∃ t u, exec (.sw 1 2 1) (cached oneLevel 0) = .next t ∧
      t.ea 2 1 = (cached oneLevel 0).ea 1 1 ∧ exec (.lw 2 3 1) t = .next u :=
  ⟨by decide, by decide, _, _, rfl, by decide, rfl⟩

/-- The call in the last cell. -/
theorem test_witness_ASubroutineReturnsAfterTheCall :
    ∃ t u : State, exec (.jal 5) (machineAt 8191 0x6005 RegFile.zero) = .next t ∧ u.reg 7 = t.reg 7 := ⟨_, _, rfl, rfl⟩

theorem test_witness_APlacedWordRunsNext : (cached oneLevel 0).mem.wf = true ∧ (cached oneLevel 0).run = .running ∧
    (cached oneLevel 0).cache.config.legal = true := by decide

theorem test_witness_PortsShowTheFinalState : State.reset.run = .running ∧
    ({ State.reset with run := .halted } : State).run ≠ .running := by decide

theorem test_witness_StoreWritesItsCellOnly : (cached twoLevel 0xA080).mem.wf = true := by decide

theorem test_witness_UnusedFunctionCodesFault : ∀ f ∈ unusedCodes, f ∉ (invalidAt f).quirkNops := by decide

theorem test_witness_QuirkFunctionCodesAreNoOps :
    ∀ f ∈ unusedCodes, f ∈ ({ invalidAt f with quirkNops := [f] } : State).quirkNops := by decide

/-- Two addresses of one block, at the smallest block and row count that allow it. -/
theorem test_witness_DecompositionLosesNothing : (0 < 2 ∧ 0 < 1) ∧
    (decompose 8191 2 1).blk = (decompose 8190 2 1).blk ∧ decompose 8191 2 1 = decompose 8191 2 1 := by decide

/-- The premises at their edge, and each of the three last clauses at its edge. -/
theorem test_witness_DecompositionStaysInRange :
    (0 < 1 ∧ 0 < 1) ∧ (0 < 2 ∧ 0 < 4096 ∧ 8192 ≤ 2 * 4096) ∧ 8191 < 8192 := by decide

/-- A load that misses and the load after it that hits. -/
theorem test_witness_LoadResolutionHitsOrInstalls : ∃ l S S', (Level.reset ⟨4, 2, 1⟩).sets[0]? = some S ∧ S ≠ [] ∧
    (Level.reset ⟨4, 2, 1⟩).rowOf 6 = 0 ∧ (Level.reset ⟨4, 2, 1⟩).resolveLoad 6 = (.miss, l) ∧
    l.sets[l.rowOf 6]? = some S' ∧ S' ≠ [] ∧ (l.resolveLoad 6).1 = .hit :=
  ⟨_, [⟨false, 0, 0⟩, ⟨false, 0, 0⟩], [⟨true, 3, 0⟩, ⟨false, 0, 1⟩], by decide, by decide, by decide, rfl, by decide,
    by decide, by decide⟩

theorem test_witness_StoreResolutionAlwaysInstalls : ∃ S, (Level.reset ⟨4, 2, 1⟩).sets[(Level.reset ⟨4, 2, 1⟩).rowOf 6]? =
    some S ∧ S ≠ [] := ⟨[⟨false, 0, 0⟩, ⟨false, 0, 0⟩], by decide, by decide⟩

/-- One witness for each clause: no level, one, two, and two with a miss and then a hit in L1. -/
theorem test_witness_LoadConsultsL2OnlyAfterAnL1Miss :
    ((cached .none 0).cache = .none ∧ ∃ t, exec (.lw 0 1 6) (cached .none 0) = .next t) ∧
    (∃ l1 t, (cached oneLevel 0).cache = .one l1 ∧ exec (.lw 0 1 6) (cached oneLevel 0) = .next t) ∧
    ∃ l1 l2 t u, (cached twoLevel 0).cache = .two l1 l2 ∧ exec (.lw 0 1 6) (cached twoLevel 0) = .next t ∧
      (l1.resolveLoad 6).1 = .miss ∧ exec (.lw 0 1 6) t = .next u ∧
      t.eventsOf (.lw 0 1 6) = [⟨.L1, .hit, 1, 6, 0⟩] :=
  ⟨⟨rfl, _, rfl⟩, ⟨_, _, rfl, rfl⟩, _, _, _, _, rfl, rfl, by decide, rfl, by decide⟩

/-- One witness for each clause. -/
theorem test_witness_StoreReachesEveryLevel :
    ((cached .none 0).cache = .none ∧ ∃ t, exec (.sw 0 1 6) (cached .none 0) = .next t) ∧
    (∃ l1 t, (cached oneLevel 0).cache = .one l1 ∧ exec (.sw 0 1 6) (cached oneLevel 0) = .next t) ∧
    ∃ l1 l2 t, (cached twoLevel 0).cache = .two l1 l2 ∧ exec (.sw 0 1 6) (cached twoLevel 0) = .next t :=
  ⟨⟨rfl, _, rfl⟩, ⟨_, _, rfl, rfl⟩, _, _, _, rfl, rfl⟩

/-- A set with an invalid line after one access, and a full set after three. -/
theorem test_witness_VictimIsFirstEmptyOrLeastRecent :
    (RecencyInv 1 [⟨true, 0, 0⟩, ⟨false, 0, 1⟩] ∧ ∃ x ∈ [⟨true, 0, 0⟩, (⟨false, 0, 1⟩ : Line)], x.valid = false) ∧
    RecencyInv 3 [⟨true, 0, 1⟩, ⟨true, 1, 0⟩] ∧ ∀ x ∈ [⟨true, 0, 1⟩, (⟨true, 1, 0⟩ : Line)], x.valid = true :=
  ⟨⟨⟨by decide, by decide, by decide, by decide, by decide⟩, by decide⟩,
    ⟨by decide, by decide, by decide, by decide, by decide⟩, by decide⟩

/-- V-CACHE-2, second and fourth access: the invalid line; the line of largest recency. -/
theorem test_victim : victim [⟨true, 0, 0⟩, ⟨false, 0, 1⟩] = 1 ∧ victim [⟨true, 0, 0⟩, ⟨true, 1, 1⟩] = 1 ∧
    victim [⟨true, 0, 3⟩, ⟨false, 0, 3⟩] = 0 := by decide

/-- Before the first access, and after one. -/
theorem test_witness_OneResolutionCountsOneAccess :
    RecencyInv 0 [⟨false, 0, 0⟩, ⟨false, 0, 0⟩] ∧ RecencyInv 1 [⟨true, 0, 0⟩, ⟨false, 0, 1⟩] :=
  ⟨⟨by decide, by decide, by decide, by decide, by decide⟩, by decide, by decide, by decide, by decide, by decide⟩

/-- A state with a valid line, and a step. -/
theorem test_witness_ValidLinesStayValid : ∃ s t l S x, step (cached oneLevel 0x8080) = .next s ∧ step s = .next t ∧
    s.cache.levels[0]? = some l ∧ l.sets[0]? = some S ∧ S[0]? = some x ∧ x.valid = true :=
  ⟨_, _, _, _, _, rfl, rfl, rfl, rfl, rfl, by decide⟩

end Sys2Proof.Machine.Tests
end

/-! SUPPORT. The statements about the state (spec/10_state.md): its invariants, its reset, and what an instruction
reads and writes. First what the proofs share: what a step can make of a cache set (R24, R137), what each instruction
answers and leaves unchanged (R14, R63), how it ends (R76 to R79), and what reset answers (R25). The statements are
settled at the end. -/

namespace Sys2Proof.Machine

/-! ### Lists related place by place -/

theorem exists_related_of_mem {α β : Type} {R : α → β → Prop} {l : List α} {l' : List β} (h : List.Forall₂ R l l')
    {b : β} (hb : b ∈ l') : ∃ a ∈ l, R a b := by
  induction h with
  | nil => cases hb
  | cons hab _ ih =>
    rcases List.mem_cons.mp hb with rfl | hb
    · exact ⟨_, List.mem_cons_self, hab⟩
    · obtain ⟨a, ha, h⟩ := ih hb
      exact ⟨a, List.mem_cons_of_mem _ ha, h⟩

theorem exists_related_of_getElem? {α β : Type} {R : α → β → Prop} {l : List α} {l' : List β}
    (h : List.Forall₂ R l l') {i : Nat} {a : α} (ha : l[i]? = some a) : ∃ b, l'[i]? = some b ∧ R a b := by
  induction h generalizing i with
  | nil => cases ha
  | @cons a' b' l l' hab _ ih =>
    cases i with
    | zero =>
      obtain rfl : a' = a := by simpa using ha
      exact ⟨b', rfl, hab⟩
    | succ i => exact ih ha

/-- Replacing one element leaves every place related by a reflexive relation, if the new element is related to the
one it replaces. -/
theorem forall₂_set {α : Type} {R : α → α → Prop} (hrefl : ∀ a, R a a) (l : List α) (i : Nat) (b : α)
    (h : ∀ hi : i < l.length, R l[i] b) : List.Forall₂ R l (l.set i b) := by
  rw [List.forall₂_iff_get]
  refine ⟨by simp, fun j hj _ => ?_⟩
  by_cases hij : i = j
  · subst hij
    simpa using h hj
  · simpa [hij] using hrefl l[j]

/-! ### One set -/

/-- After a touch of a line of the set that line alone has recency 0 (R125). -/
theorem touch_countP_recency_zero {S : List Line} {i : Nat} (h : i < S.length) :
    (touch S i).countP (fun l => l.recency == 0) = 1 := by
  induction S generalizing i with
  | nil => cases h
  | cons a S ih =>
    cases i with
    | zero =>
      have hrest : ∀ l ∈ S.mapIdx fun j l => ({ l with recency := if j + 1 = 0 then 0 else l.recency + 1 } : Line),
          ¬ (l.recency == 0) = true := by
        intro l hl
        obtain ⟨j, hj, rfl⟩ := List.mem_mapIdx.mp hl
        simp
      rw [touch, List.mapIdx_cons, List.countP_cons, List.countP_eq_zero.mpr hrest]
      simp
    | succ i =>
      have hS := ih (Nat.lt_of_succ_lt_succ h)
      simp only [touch] at hS
      simp [touch, List.mapIdx_cons, hS]

/-- A touch of a valid line takes R24 from `n` accesses to `n + 1`. Of that line's own recency nothing is asked, so
that this serves the line just installed too. -/
theorem recencyInv_touch {n i : Nat} {S : List Line} (hi : i < S.length) (hv : S[i].valid = true)
    (hinvalid : ∀ j, ∀ hj : j < S.length, S[j].valid = false → S[j].recency = n)
    (hvalid : ∀ j, ∀ hj : j < S.length, j ≠ i → S[j].valid = true → S[j].recency < n)
    (hdiff : ∀ j k, ∀ hj : j < S.length, ∀ hk : k < S.length, j ≠ i → k ≠ i → j < k →
      S[j].valid = true → S[k].valid = true → S[j].recency ≠ S[k].recency)
    (hsuffix : S.Pairwise fun a b => a.valid = false → b.valid = false) : RecencyInv (n + 1) (touch S i) where
  invalid := by
    rw [List.forall_mem_iff_forall_getElem]
    intro j hj hf
    simp only [touch_getElem] at hf ⊢
    have hji : j ≠ i := by
      rintro rfl
      simp [hv] at hf
    simp [hji, hinvalid j (by simpa using hj) hf]
  valid := by
    rw [List.forall_mem_iff_forall_getElem]
    intro j hj ht
    simp only [touch_getElem] at ht ⊢
    by_cases hji : j = i
    · simp [hji]
    · simpa [hji] using hvalid j (by simpa using hj) hji ht
  different := by
    rw [List.pairwise_iff_getElem]
    intro j k hj hk hjk hvj hvk
    simp only [touch_getElem] at hvj hvk ⊢
    by_cases hji : j = i
    · simp [hji, show k ≠ i by omega]
    · by_cases hki : k = i
      · simp [hki, hji]
      · simpa [hji, hki] using hdiff j k (by simpa using hj) (by simpa using hk) hji hki hjk hvj hvk
  suffix := by
    rw [List.pairwise_iff_getElem] at hsuffix ⊢
    intro j k hj hk hjk
    simpa only [touch_getElem] using hsuffix j k (by simpa using hj) (by simpa using hk) hjk
  latest := fun _ => touch_countP_recency_zero hi

/-- A touch of a valid line takes R24 from `n` accesses to `n + 1` (R138). -/
theorem RecencyInv.touch {n i : Nat} {S : List Line} (h : RecencyInv n S) (hi : i < S.length)
    (hv : S[i].valid = true) : RecencyInv (n + 1) (touch S i) :=
  recencyInv_touch hi hv (fun _ hj => h.invalid _ (List.getElem_mem hj))
    (fun _ hj _ => h.valid _ (List.getElem_mem hj))
    (fun j k hj hk _ _ hjk => List.pairwise_iff_getElem.mp h.different j k hj hk hjk) h.suffix

/-- Under R24 no line below the victim is invalid: the victim is in the first empty place, if there is one (R124). -/
theorem RecencyInv.valid_of_lt_victim {n j : Nat} {S : List Line} (h : RecencyInv n S) (hS : S ≠ [])
    (hj : j < victim S) : (S[j]'(hj.trans (victim_lt hS))).valid = true := by
  have hlt := victim_lowest hS j hj
  by_contra hf
  have hn := h.invalid _ (List.getElem_mem (hj.trans (victim_lt hS))) (by simpa using hf)
  have hvictim : (S[victim S]'(victim_lt hS)).recency ≤ n := by
    cases hval : (S[victim S]'(victim_lt hS)).valid with
    | false => exact (h.invalid _ (List.getElem_mem _) hval).le
    | true => exact (h.valid _ (List.getElem_mem _) hval).le
  omega

/-- An install takes R24 from `n` accesses to `n + 1` (R138). -/
theorem RecencyInv.installTag {n : Nat} {S : List Line} (h : RecencyInv n S) (hS : S ≠ []) (tag : Nat) :
    RecencyInv (n + 1) (installTag S tag) := by
  have hlt := victim_lt hS
  refine recencyInv_touch (by simpa using hlt) (by simp) ?_ ?_ ?_ ?_
  · intro j hj hf
    rw [List.getElem_modify] at hf ⊢
    split at hf
    · cases hf
    · next hne => simpa [hne] using h.invalid _ (List.getElem_mem _) hf
  · intro j hj hne ht
    simp only [List.getElem_modify, if_neg (Ne.symm hne)] at ht ⊢
    exact h.valid _ (List.getElem_mem _) ht
  · intro j k hj hk hnj hnk hjk
    simp only [List.getElem_modify, if_neg (Ne.symm hnj), if_neg (Ne.symm hnk)]
    exact List.pairwise_iff_getElem.mp h.different j k _ _ hjk
  · rw [List.pairwise_iff_getElem]
    intro j k hj hk hjk hf
    rw [List.getElem_modify] at hf ⊢
    split at hf
    · cases hf
    · have hkf := List.pairwise_iff_getElem.mp h.suffix j k (by simpa using hj) (by simpa using hk) hjk hf
      split
      · next hvk =>
        have := h.valid_of_lt_victim hS (hvk ▸ hjk)
        simp [this] at hf
      · exact hkf

/-- A load resolution takes R24 from `n` accesses to `n + 1` (R138). -/
theorem RecencyInv.loadSet {n : Nat} {S : List Line} (h : RecencyInv n S) (hS : S ≠ []) (tag : Nat) :
    RecencyInv (n + 1) (loadSet S tag).2 := by
  rcases loadSet_cases S tag with ⟨i, hl, e⟩ | ⟨-, e⟩
  · obtain ⟨hi, ⟨hv, -⟩, -⟩ := (lookup_eq_some_iff S tag i).mp hl
    rw [e]
    exact h.touch hi hv
  · rw [e]
    exact h.installTag hS tag

/-- A touch changes no tag and no valid bit (R125). -/
theorem uniqueTags_touch {S : List Line} (h : uniqueTags S) (i : Nat) : uniqueTags (touch S i) := by
  rw [uniqueTags, List.pairwise_iff_getElem] at h ⊢
  intro j k hj hk hjk
  simpa only [touch_getElem] using h j k (by simpa using hj) (by simpa using hk) hjk

/-- An install of a tag that no valid line holds puts no tag in two lines. -/
theorem uniqueTags_installTag {S : List Line} {tag : Nat} (h : uniqueTags S) (hmiss : lookup S tag = none) :
    uniqueTags (installTag S tag) := by
  rw [lookup_eq_none_iff] at hmiss
  rw [uniqueTags, List.pairwise_iff_getElem] at h ⊢
  intro j k hj hk hjk hvj hvk
  simp only [installTag_length] at hj hk
  have hmj := hmiss S[j] (List.getElem_mem hj)
  have hmk := hmiss S[k] (List.getElem_mem hk)
  simp only [installTag_getElem] at hvj hvk ⊢
  by_cases hjv : j = victim S
  · have hkv : k ≠ victim S := by omega
    simp only [if_pos hjv, if_neg hkv] at hvk ⊢
    exact fun he => hmk ⟨hvk, he.symm⟩
  · by_cases hkv : k = victim S
    · simp only [if_pos hkv, if_neg hjv] at hvj ⊢
      exact fun he => hmj ⟨hvj, he⟩
    · simp only [if_neg hjv, if_neg hkv] at hvj hvk ⊢
      exact h j k hj hk hjk hvj hvk

/-- A load resolution installs a tag only where no valid line holds it (R24, R126). -/
theorem uniqueTags_loadSet {S : List Line} (h : uniqueTags S) (tag : Nat) : uniqueTags (loadSet S tag).2 := by
  rcases loadSet_cases S tag with ⟨i, -, e⟩ | ⟨hmiss, e⟩
  · rw [e]
    exact uniqueTags_touch h i
  · rw [e]
    exact uniqueTags_installTag h hmiss

/-- An install leaves valid lines valid (R137). -/
theorem installTag_valid {S : List Line} (tag : Nat) {i : Nat} (hi : i < S.length) (hv : S[i].valid = true) :
    ((installTag S tag)[i]'(by simpa using hi)).valid = true := by
  rw [installTag_getElem]
  split
  · rfl
  · exact hv

/-- A load resolution leaves valid lines valid (R137). -/
theorem loadSet_valid {S : List Line} (tag : Nat) {i : Nat} (hi : i < S.length) (hv : S[i].valid = true) :
    ((loadSet S tag).2[i]'(by simpa using hi)).valid = true := by
  rcases loadSet_cases S tag with ⟨j, -, e⟩ | ⟨-, e⟩
  · simpa [e, touch_getElem] using hv
  · simpa [e] using installTag_valid tag hi hv

/-! ### What one step can make of the cache -/

/-- What a step can make of one set: leave it, resolve a load in it, or, if it executes a store (`stores`), install a
tag (R130, R131, R137). -/
inductive SetStep (stores : Prop) : List Line → List Line → Prop where
  | kept {S : List Line} : SetStep stores S S
  | load {S : List Line} (tag : Nat) : SetStep stores S (loadSet S tag).2
  | store {S : List Line} (h : stores) (tag : Nat) : SetStep stores S (installTag S tag)

/-- What a step can make of one level: its geometry stays, and each set makes a `SetStep` in its place. -/
structure LevelStep (stores : Prop) (l l' : Level) : Prop where
  geom : l'.geom = l.geom
  sets : List.Forall₂ (SetStep stores) l.sets l'.sets

theorem LevelStep.refl (stores : Prop) (l : Level) : LevelStep stores l l where
  geom := rfl
  sets := List.forall₂_same.mpr fun _ _ => .kept

theorem Level.resolveLoad_levelStep (stores : Prop) (l : Level) (a : Addr) :
    LevelStep stores l (l.resolveLoad a).2 where
  geom := l.resolveLoad_geom a
  sets := by
    rw [Level.resolveLoad_sets]
    refine forall₂_set (fun _ => .kept) _ _ _ fun hi => ?_
    rw [Level.setAt, List.getD_eq_getElem _ _ hi]
    exact .load _

theorem Level.resolveStore_levelStep {stores : Prop} (h : stores) (l : Level) (a : Addr) :
    LevelStep stores l (l.resolveStore a) where
  geom := l.resolveStore_geom a
  sets := by
    rw [Level.resolveStore_sets]
    refine forall₂_set (fun _ => .kept) _ _ _ fun hi => ?_
    rw [Level.setAt, List.getD_eq_getElem _ _ hi]
    exact .store h _

theorem Hierarchy.load_levelSteps (stores : Prop) (h : Hierarchy) (pc a : Addr) :
    List.Forall₂ (LevelStep stores) h.levels (h.load pc a).1.levels := by
  rcases Hierarchy.load_cases h pc a with ⟨rfl, e⟩ | ⟨l1, rfl, e⟩ | ⟨l1, l2, rfl, -, e⟩ | ⟨l1, l2, rfl, -, e⟩ <;>
    rw [e]
  · exact .nil
  · exact .cons (l1.resolveLoad_levelStep stores a) .nil
  · exact .cons (l1.resolveLoad_levelStep stores a) (.cons (.refl stores l2) .nil)
  · exact .cons (l1.resolveLoad_levelStep stores a) (.cons (l2.resolveLoad_levelStep stores a) .nil)

theorem Hierarchy.store_levelSteps {stores : Prop} (hs : stores) (h : Hierarchy) (pc a : Addr) :
    List.Forall₂ (LevelStep stores) h.levels (h.store pc a).1.levels := by
  cases h with
  | none => exact .nil
  | one l1 => exact .cons (l1.resolveStore_levelStep hs a) .nil
  | two l1 l2 => exact .cons (l1.resolveStore_levelStep hs a) (.cons (l2.resolveStore_levelStep hs a) .nil)

/-- The word at `pc` is a store. -/
def State.fetchesStore (s : State) : Prop := ∃ a b imm, decode s.fetchWord = .sw a b imm

/-- The cache after an instruction: as it was, after `CacheLoad` for `lw`, or after `CacheStore` for `sw` (R63). -/
theorem execState_cache_cases (i : Instr) (s : State) :
    (execState i s).cache = s.cache ∨
    (∃ a b imm, i = .lw a b imm ∧ (execState i s).cache = (s.cache.load s.pc (s.ea a imm)).1) ∨
    ∃ a b imm, i = .sw a b imm ∧ (execState i s).cache = (s.cache.store s.pc (s.ea a imm)).1 := by
  rcases execState_cases i s with
    ⟨n, e⟩ | ⟨d, v, n, -, -, e⟩ | ⟨a, b, imm, hi, e⟩ | ⟨a, b, imm, hi, e⟩ | ⟨f, -, -, e⟩
  · exact .inl (by simp [e])
  · exact .inl (by simp [e])
  · exact .inr (.inl ⟨a, b, imm, hi, by simp [e]⟩)
  · exact .inr (.inr ⟨a, b, imm, hi, by simp [e]⟩)
  · exact .inl (by simp [e])

/-- The cache after a step. -/
theorem step_cache_cases {s t : State} (h : step s = .next t) :
    t.cache = s.cache ∨ (∃ a, t.cache = (s.cache.load s.pc a).1) ∨
    (s.fetchesStore ∧ ∃ a, t.cache = (s.cache.store s.pc a).1) := by
  rcases step_next_cases h with ⟨-, -, rfl⟩ | ⟨-, rfl⟩
  · rcases execState_cache_cases (decode s.fetchWord) s with
      e | ⟨a, b, imm, -, e⟩ | ⟨a, b, imm, hi, e⟩
    · exact .inl e
    · exact .inr (.inl ⟨_, e⟩)
    · exact .inr (.inr ⟨⟨a, b, imm, hi⟩, _, e⟩)
  · exact .inl rfl

/-- Every level, in its place, makes a `LevelStep` when the machine makes a step. -/
theorem step_levelSteps {s t : State} (h : step s = .next t) :
    List.Forall₂ (LevelStep s.fetchesStore) s.cache.levels t.cache.levels := by
  rcases step_cache_cases h with e | ⟨a, e⟩ | ⟨hs, a, e⟩ <;> rw [e]
  · exact List.forall₂_same.mpr fun l _ => .refl _ l
  · exact s.cache.load_levelSteps _ s.pc a
  · exact s.cache.store_levelSteps hs s.pc a

/-- Every set after a step comes by a `SetStep` from a set before it. -/
theorem step_setStep {s t : State} (h : step s = .next t) {l' : Level} (hl' : l' ∈ t.cache.levels) {S' : List Line}
    (hS' : S' ∈ l'.sets) : ∃ l ∈ s.cache.levels, ∃ S ∈ l.sets, SetStep s.fetchesStore S S' := by
  obtain ⟨l, hl, hstep⟩ := exists_related_of_mem (step_levelSteps h) hl'
  obtain ⟨S, hS, hset⟩ := exists_related_of_mem hstep.sets hS'
  exact ⟨l, hl, S, hS, hset⟩

theorem SetStep.length_eq {stores : Prop} {S S' : List Line} (h : SetStep stores S S') :
    S'.length = S.length := by
  cases h with
  | kept => rfl
  | load tag => exact loadSet_length S tag
  | store _ tag => exact installTag_length S tag

theorem SetStep.recencyInv {stores : Prop} {n : Nat} {S S' : List Line} (h : SetStep stores S S') (hS : S ≠ [])
    (hn : RecencyInv n S) : ∃ m, RecencyInv m S' := by
  cases h with
  | kept => exact ⟨n, hn⟩
  | load tag => exact ⟨n + 1, hn.loadSet hS tag⟩
  | store _ tag => exact ⟨n + 1, hn.installTag hS tag⟩

theorem SetStep.uniqueTags {stores : Prop} {S S' : List Line} (h : SetStep stores S S') (hno : ¬ stores)
    (hu : uniqueTags S) : uniqueTags S' := by
  cases h with
  | kept => exact hu
  | load tag => exact uniqueTags_loadSet hu tag
  | store hs => exact absurd hs hno

theorem SetStep.valid {stores : Prop} {S S' : List Line} (h : SetStep stores S S') {i : Nat} (hi : i < S.length)
    (hv : S[i].valid = true) : (S'[i]'(by rwa [h.length_eq])).valid = true := by
  cases h with
  | kept => exact hv
  | load tag => exact loadSet_valid tag hi hv
  | store _ tag => exact installTag_valid tag hi hv

theorem LevelStep.shaped {stores : Prop} {l l' : Level} (h : LevelStep stores l l') (hl : l.Shaped) : l'.Shaped := by
  obtain ⟨hlegal, hrows, hassoc⟩ := hl
  refine ⟨h.geom ▸ hlegal, by rw [← h.sets.length_eq, hrows, h.geom], fun S' hS' => ?_⟩
  obtain ⟨S, hS, hset⟩ := exists_related_of_mem h.sets hS'
  rw [hset.length_eq, hassoc S hS, h.geom]

/-- Every step keeps the shape of the arrays (R22, R137). -/
theorem step_shaped {s t : State} (h : step s = .next t) (hs : s.cache.Shaped) : t.cache.Shaped := by
  intro l' hl'
  obtain ⟨l, hl, hstep⟩ := exists_related_of_mem (step_levelSteps h) hl'
  exact hstep.shaped (hs l hl)

/-! ### What each instruction answers -/

section
variable (s : State) (a b : RegIdx) (imm : BitVec 7) (target : Addr)

theorem execState_j : execState (.j target) s = s.endStep (absTarget target) := rfl
theorem execState_jal :
    execState (.jal target) s = (s.writeReg Config.linkReg s.pcPlusOne).endStep (absTarget target) := rfl
theorem execState_jr : execState (.jr a) s = s.endStep (regTarget (s.reg a)) := rfl
theorem execState_jeq : execState (.jeq a b imm) s =
    s.endStep (if s.reg a = s.reg b then s.branchTarget imm else s.pcPlusOne) := rfl
theorem execState_lw : execState (.lw a b imm) s =
    ((s.cacheLoad (s.ea a imm)).writeReg b (memRead s.mem (s.ea a imm))).advance := rfl
theorem execState_sw : execState (.sw a b imm) s =
    ((s.storeCell (s.ea a imm) (s.reg b)).cacheStore (s.ea a imm)).advance := rfl

/-- An instruction whose operation is an unused function code is that code's instruction (R60). -/
theorem eq_instr_of_op_invalid {i : Instr} {f : InvalidFunc} (h : i.op = .invalid f) : i = f.instr := by
  cases i <;> cases h <;> rfl

/-- The ten unused function codes have one meaning (R140, R142). -/
theorem execState_invalid (f : InvalidFunc) :
    execState f.instr s = if f ∈ s.quirkNops then s.advance else s.takeInvalidFunction f := by
  cases f <;> rfl

end

/-! ### What an instruction leaves unchanged -/

@[simp] theorem execState_quirkNops (i : Instr) (s : State) : (execState i s).quirkNops = s.quirkNops := by
  rcases execState_cases i s with
    ⟨n, e⟩ | ⟨d, v, n, -, -, e⟩ | ⟨a, b, imm, -, e⟩ | ⟨a, b, imm, -, e⟩ | ⟨f, -, -, e⟩ <;> simp [e]

/-- The memory after an instruction: as it was, or for `sw` with one cell replaced (R63). -/
theorem execState_mem_cases (i : Instr) (s : State) :
    (execState i s).mem = s.mem ∨
    ∃ a b imm, i = .sw a b imm ∧ (execState i s).mem = memWrite s.mem (s.ea a imm) (s.reg b) := by
  rcases execState_cases i s with
    ⟨n, e⟩ | ⟨d, v, n, -, -, e⟩ | ⟨a, b, imm, -, e⟩ | ⟨a, b, imm, hi, e⟩ | ⟨f, -, -, e⟩
  · exact .inl (by simp [e])
  · exact .inl (by simp [e])
  · exact .inl (by simp [e])
  · exact .inr ⟨a, b, imm, hi, by simp [e]⟩
  · exact .inl (by simp [e])

/-- A register that the control signals do not name as written keeps its value (R14, R63). -/
theorem execState_reg_of_not_written {i : Instr} {r : RegIdx} (h : (controlSignals i).writes ≠ some r) (s : State) :
    (execState i s).reg r = s.reg r := by
  rcases execState_cases i s with
    ⟨n, e⟩ | ⟨d, v, n, hd, -, e⟩ | ⟨a, b, imm, rfl, e⟩ | ⟨a, b, imm, -, e⟩ | ⟨f, -, -, e⟩
  · simp [e]
  · have hdr : d ≠ r := fun hdr => h (hdr ▸ hd)
    simp [e, State.reg_writeReg, hdr]
  · have hbr : b ≠ r := fun hbr => h (hbr ▸ rfl)
    simp [e, State.reg_writeReg, hbr]
  · simp [e]
  · simp [e]

theorem eq_sw_of_mem_write {i : Instr} (h : (controlSignals i).mem = .write) : ∃ a b imm, i = .sw a b imm := by
  cases i with
  | sw a b imm => exact ⟨a, b, imm, rfl⟩
  | _ => cases h

theorem noMemoryAccess_of_cache_none {i : Instr} (h : (controlSignals i).cache = .none) : noMemoryAccess i := by
  refine ⟨?_, ?_⟩ <;> (rintro a b imm rfl; cases h)

/-! ### How an instruction ends -/

theorem State.endStep_run_cases (s : State) (n : Word) :
    (s.endStep n).run = s.run ∨ (s.endStep n).run = .halted := by
  rw [State.endStep_run]
  split
  · exact .inr rfl
  · exact .inl rfl

theorem State.endStep_pc_of_halted {s : State} {n : Word} (hr : s.run = .running)
    (h : (s.endStep n).run = .halted) : (s.endStep n).pc = s.pc := by
  by_contra hne
  rw [State.endStep_pc] at hne
  simp [hne, hr] at h

/-- An instruction takes the exception, or leaves the fault record alone and goes on or halts (R78). -/
theorem execState_fault_cases (i : Instr) (s : State) :
    (∃ f : InvalidFunc, i = f.instr ∧ f ∉ s.quirkNops ∧ execState i s = s.takeInvalidFunction f) ∨
    ((execState i s).fault = s.fault ∧ ((execState i s).run = s.run ∨ (execState i s).run = .halted)) := by
  rcases execState_cases i s with
    ⟨n, e⟩ | ⟨d, v, n, -, -, e⟩ | ⟨a, b, imm, -, e⟩ | ⟨a, b, imm, -, e⟩ | h
  · exact .inr ⟨by simp [e], e ▸ s.endStep_run_cases n⟩
  · exact .inr ⟨by simp [e], e ▸ (s.writeReg d v).endStep_run_cases n⟩
  · exact .inr ⟨by simp [e], .inl (by simp [e])⟩
  · exact .inr ⟨by simp [e], .inl (by simp [e])⟩
  · exact .inl h

/-- An instruction that halts changes neither `pc` nor memory (R76). -/
theorem execState_pc_mem_of_halted {i : Instr} {s : State} (hr : s.run = .running)
    (h : (execState i s).run = .halted) : (execState i s).pc = s.pc ∧ (execState i s).mem = s.mem := by
  rcases execState_cases i s with
    ⟨n, e⟩ | ⟨d, v, n, -, -, e⟩ | ⟨a, b, imm, -, e⟩ | ⟨a, b, imm, -, e⟩ | ⟨f, -, -, e⟩ <;> rw [e] at h ⊢
  · exact ⟨State.endStep_pc_of_halted hr h, by simp⟩
  · exact ⟨State.endStep_pc_of_halted hr h, by simp⟩
  · simp [hr] at h
  · simp [hr] at h
  · simp at h

theorem absTarget_reduced (target : Addr) : (absTarget target).setWidth 13 = target := by
  simp [absTarget]

/-- A register target is the register modulo 8192 (R97). -/
theorem regTarget_reduced_eq_iff (v : Word) (p : Addr) :
    (regTarget v).setWidth 13 = p ↔ v.toNat % 8192 = p.toNat := by
  have hmask : (0x1FFF : Word).toNat = 2 ^ 13 - 1 := rfl
  rw [← BitVec.toNat_inj, regTarget, BitVec.toNat_setWidth, BitVec.toNat_and, hmask,
    Nat.and_two_pow_sub_one_eq_mod, Nat.mod_mod]

/-- Only the displacement -1 is -1 modulo 8192 (R56). -/
theorem sext16_reduced_eq_neg_one_iff (imm : BitVec 7) : (sext16 imm).setWidth 13 = -1 ↔ imm.toInt = -1 := by
  revert imm
  decide

/-- A taken branch goes to its own address exactly if its displacement is -1 (R79, R98). -/
theorem State.branchTarget_reduced_eq_pc_iff (s : State) (imm : BitVec 7) :
    (s.branchTarget imm).setWidth 13 = s.pc ↔ imm.toInt = -1 := by
  rw [State.branchTarget, BitVec.setWidth_add _ _ (by omega), State.pcPlusOne_reduced,
    ← sext16_reduced_eq_neg_one_iff]
  generalize (sext16 imm).setWidth 13 = d
  constructor <;> intro h <;> bv_omega

/-- From a running engine, the instructions that halt are the transfers to their own address (R79). -/
theorem execState_halted_iff {s : State} (hr : s.run = .running) (i : Instr) :
    (execState i s).run = .halted ↔ s.selfTransfer i := by
  have hadvance {u : State} (hu : u.run = s.run) : ¬ u.advance.run = .halted := by
    simp [hu, hr]
  by_cases hop : ∃ f, i.op = .invalid f
  · obtain ⟨f, hf⟩ := hop
    obtain rfl := eq_instr_of_op_invalid hf
    refine iff_of_false ?_ (by cases f <;> exact id)
    rw [execState_invalid]
    split
    · exact hadvance rfl
    · simp
  · cases i with
    | j target => simp [execState_j, State.selfTransfer, absTarget_reduced, hr]
    | jal target => simp [execState_jal, State.selfTransfer, absTarget_reduced, hr]
    | jr a => simp [execState_jr, State.selfTransfer, regTarget_reduced_eq_iff, hr]
    | jeq a b imm =>
      by_cases hab : s.reg a = s.reg b
      · simp [execState_jeq, State.selfTransfer, hab, State.branchTarget_reduced_eq_pc_iff, hr]
      · simp [execState_jeq, State.selfTransfer, hab, State.pcPlusOne_reduced, hr]
    | add a b c | sub a b c | or a b c | and a b c | slt a b c =>
      exact iff_of_false (hadvance (u := s.writeReg c _) rfl) id
    | addi a b imm | slti a b imm | lw a b imm | sw a b imm => exact iff_of_false (hadvance rfl) id
    | _ => exact absurd ⟨_, rfl⟩ hop

/-- A transfer to its own address is one again in the state it leads to: it changes no register it reads. -/
theorem selfTransfer_execState {i : Instr} {s : State} (h : s.selfTransfer i) (hpc : (execState i s).pc = s.pc) :
    (execState i s).selfTransfer i := by
  cases i with
  | j target => exact Eq.trans h hpc.symm
  | jal target => exact Eq.trans h hpc.symm
  | jr a =>
    rw [State.selfTransfer, hpc, execState_jr, State.reg_endStep]
    exact h
  | jeq a b imm =>
    rw [State.selfTransfer, execState_jeq, State.reg_endStep, State.reg_endStep]
    exact h
  | _ => exact h

/-! ### The state invariant -/

theorem State.Inv.fault_eq_none {s : State} (h : s.Inv) (hr : s.run = .running) : s.fault = none :=
  h.fault.1 (by simp [hr])

theorem execState_mem_wf {s : State} (h : s.mem.wf = true) (i : Instr) : (execState i s).mem.wf = true := by
  rcases execState_mem_cases i s with e | ⟨a, b, imm, -, e⟩ <;> rw [e]
  · exact h
  · exact memWrite_wf _ _ h

theorem execState_faultConsistent {s : State} (hr : s.run = .running) (hf : s.fault = none) :
    (execState (decode s.fetchWord) s).FaultConsistent := by
  rcases execState_fault_cases (decode s.fetchWord) s with ⟨f, hi, hq, e⟩ | ⟨hfault, hrun⟩
  · rw [e]
    exact ⟨fun h => absurd rfl h, fun _ => ⟨f, hq, hi, rfl⟩⟩
  · refine ⟨fun _ => hfault.trans hf, fun h => ?_⟩
    rcases hrun with hrun | hrun <;> simp [hrun, hr] at h

theorem execState_haltConsistent {s : State} (hr : s.run = .running) :
    (execState (decode s.fetchWord) s).HaltConsistent := by
  intro h
  obtain ⟨hpc, hmem⟩ := execState_pc_mem_of_halted hr h
  have hfetch : (execState (decode s.fetchWord) s).fetchWord = s.fetchWord := congrArg₂ memRead hmem hpc
  rw [hfetch]
  exact selfTransfer_execState ((execState_halted_iff hr _).mp h) hpc

/-! ### States that differ in registers alone -/

/-- The two states agree on everything but the general registers. -/
structure SameButRegs (s s' : State) : Prop where
  pc : s.pc = s'.pc
  run : s.run = s'.run
  fault : s.fault = s'.fault
  mem : s.mem = s'.mem
  cache : s.cache = s'.cache
  quirkNops : s.quirkNops = s'.quirkNops

theorem sameButRegs_iff {s s' : State} : SameButRegs s s' ↔ { s with x := s'.x } = s' := by
  constructor
  · intro ⟨hpc, hrun, hfault, hmem, hcache, hquirk⟩
    rw [hpc, hrun, hfault, hmem, hcache, hquirk]
  · intro h
    rw [← h]
    exact ⟨rfl, rfl, rfl, rfl, rfl, rfl⟩

namespace SameButRegs
variable {s s' : State} (h : SameButRegs s s')
include h

theorem writeReg (d : RegIdx) (v v' : Word) : SameButRegs (s.writeReg d v) (s'.writeReg d v') :=
  ⟨h.pc, h.run, h.fault, h.mem, h.cache, h.quirkNops⟩

theorem endStep (n : Word) : SameButRegs (s.endStep n) (s'.endStep n) := by
  constructor <;> simp [h.pc, h.run, h.fault, h.mem, h.cache, h.quirkNops]

theorem pcPlusOne : s.pcPlusOne = s'.pcPlusOne := by
  rw [State.pcPlusOne, h.pc, State.pcPlusOne]

theorem advance : SameButRegs s.advance s'.advance := by
  rw [State.advance, State.advance, h.pcPlusOne]
  exact h.endStep _

theorem cacheLoad (a : Addr) : SameButRegs (s.cacheLoad a) (s'.cacheLoad a) := by
  constructor <;> simp [h.pc, h.run, h.fault, h.mem, h.cache, h.quirkNops]

theorem cacheStore (a : Addr) : SameButRegs (s.cacheStore a) (s'.cacheStore a) := by
  constructor <;> simp [h.pc, h.run, h.fault, h.mem, h.cache, h.quirkNops]

theorem storeCell (a : Addr) (v : Word) : SameButRegs (s.storeCell a v) (s'.storeCell a v) := by
  constructor <;> simp [h.pc, h.run, h.fault, h.mem, h.cache, h.quirkNops]

theorem takeInvalidFunction (f : InvalidFunc) : SameButRegs (s.takeInvalidFunction f) (s'.takeInvalidFunction f) := by
  constructor <;> simp [h.pc, h.mem, h.cache, h.quirkNops]

theorem execState_invalid (f : InvalidFunc) : SameButRegs (execState f.instr s) (execState f.instr s') := by
  rw [Machine.execState_invalid, Machine.execState_invalid, h.quirkNops]
  split
  · exact h.advance
  · exact h.takeInvalidFunction f

end SameButRegs

/-- Two states that agree on everything but the registers make the same write, and then end their step at the same
next-PC. -/
theorem SameButRegs.writeReg_endStep {s s' : State} (h : SameButRegs s s') (d : RegIdx) {v v' : Word} (hv : v = v')
    {n n' : Word} (hn : n = n') : SameButRegs ((s.writeReg d v).endStep n) ((s'.writeReg d v').endStep n') ∧
      ∀ r, some d = some r → ((s.writeReg d v).endStep n).reg r = ((s'.writeReg d v').endStep n').reg r := by
  subst hv hn
  refine ⟨(h.writeReg d v v).endStep n, fun r hr => ?_⟩
  obtain rfl := Option.some.inj hr
  rw [State.reg_endStep, State.reg_endStep, State.reg_writeReg, State.reg_writeReg]
  by_cases hd : d = 0 <;> simp [hd]

theorem State.ea_congr {s s' : State} {a : RegIdx} (h : s.reg a = s'.reg a) (imm : BitVec 7) :
    s.ea a imm = s'.ea a imm := by
  rw [State.ea, h, State.ea]

/-- From two states that agree on the registers an instruction reads and on everything but the registers, it leads to
states that agree on everything but the registers, and on the register it writes (R14). -/
theorem execState_sameButRegs {i : Instr} {s s' : State} (h : SameButRegs s s')
    (hreads : ∀ r ∈ (controlSignals i).reads, s.reg r = s'.reg r) :
    SameButRegs (execState i s) (execState i s') ∧
      ∀ r, (controlSignals i).writes = some r → (execState i s).reg r = (execState i s').reg r := by
  have hnone {u u' : State} (hu : SameButRegs u u') :
      SameButRegs u u' ∧ ∀ r, (none : Option RegIdx) = some r → u.reg r = u'.reg r := ⟨hu, nofun⟩
  have hreads2 {a b : RegIdx} (hab : ∀ r ∈ [a, b], s.reg r = s'.reg r) : s.reg a = s'.reg a ∧ s.reg b = s'.reg b := by
    simpa using hab
  have hreads1 {a : RegIdx} (ha : ∀ r ∈ [a], s.reg r = s'.reg r) : s.reg a = s'.reg a := by
    simpa using ha
  by_cases hop : ∃ f, i.op = .invalid f
  · obtain ⟨f, hf⟩ := hop
    obtain rfl := eq_instr_of_op_invalid hf
    refine ⟨h.execState_invalid f, fun r hr => ?_⟩
    cases f <;> cases hr
  · cases i with
    | add a b c | sub a b c | or a b c | and a b c | slt a b c =>
      obtain ⟨ha, hb⟩ := hreads2 hreads
      exact h.writeReg_endStep c (by rw [ha, hb]) h.pcPlusOne
    | addi a b imm | slti a b imm => exact h.writeReg_endStep b (by rw [hreads1 hreads]) h.pcPlusOne
    | jal target => exact h.writeReg_endStep _ h.pcPlusOne rfl
    | j target => exact hnone (h.endStep _)
    | jr a =>
      rw [execState_jr, execState_jr, hreads1 hreads]
      exact hnone (h.endStep _)
    | jeq a b imm =>
      obtain ⟨ha, hb⟩ := hreads2 hreads
      rw [execState_jeq, execState_jeq, ha, hb, State.branchTarget, State.branchTarget, h.pcPlusOne]
      exact hnone (h.endStep _)
    | lw a b imm =>
      rw [execState_lw, execState_lw, State.ea_congr (hreads1 hreads), h.mem]
      exact (h.cacheLoad _).writeReg_endStep b rfl h.pcPlusOne
    | sw a b imm =>
      obtain ⟨ha, hb⟩ := hreads2 hreads
      rw [execState_sw, execState_sw, State.ea_congr ha, hb]
      exact hnone ((h.storeCell _ _).cacheStore _).advance
    | _ => exact absurd ⟨_, rfl⟩ hop

/-- The events of an instruction depend on the registers only through the effective address (R14, R133). -/
theorem eventsOf_sameButRegs {i : Instr} {s s' : State} (h : SameButRegs s s')
    (hreads : ∀ r ∈ (controlSignals i).reads, s.reg r = s'.reg r) : s.eventsOf i = s'.eventsOf i := by
  cases i with
  | lw a b imm | sw a b imm =>
    have hea : s.ea a imm = s'.ea a imm := State.ea_congr (hreads a (by simp [controlSignals])) imm
    simp [hea, h.pc, h.cache]
  | _ => rfl

/-! ### Reset -/

/-- Nothing listed reads as 0 (R42). -/
theorem memRead_nil (a : Addr) : memRead [] a = 0 := by
  rw [memRead, Memory.readByte, Memory.readByte]
  decide

/-- A cell after an image is placed from cell `a` on: the image's word, or what the cell held (R36, R42). -/
theorem memRead_loadImage (ws : List Word) {m : Memory} {a : Nat} (hm : m.wf = true)
    (hfit : a + ws.length ≤ 8192) (c : Addr) : memRead (loadImage m a ws) c =
      if a ≤ c.toNat then ws.getD (c.toNat - a) (memRead m c) else memRead m c := by
  induction ws generalizing m a with
  | nil => simp [loadImage]
  | cons w ws ih =>
    rw [List.length_cons] at hfit
    have ha : (BitVec.ofNat 13 a).toNat = a := Nat.mod_eq_of_lt (by omega)
    rw [loadImage, ih (memWrite_wf _ _ hm) (by omega)]
    rcases Nat.lt_trichotomy c.toNat a with hlt | heq | hgt
    · have hne : c ≠ BitVec.ofNat 13 a := fun h => by rw [h, ha] at hlt; omega
      rw [if_neg (by omega), if_neg (by omega), memRead_memWrite_other _ _ hne]
    · obtain rfl : c = BitVec.ofNat 13 a := BitVec.eq_of_toNat_eq (heq.trans ha.symm)
      rw [if_neg (by omega), if_pos (by omega), memRead_memWrite_same _ _ hm, ha, Nat.sub_self, List.getD_cons_zero]
    · have hne : c ≠ BitVec.ofNat 13 a := fun h => by rw [h, ha] at hgt; omega
      rw [if_pos (by omega), if_pos (by omega), memRead_memWrite_other _ _ hne,
        show c.toNat - a = c.toNat - (a + 1) + 1 by omega, List.getD_cons_succ]

/-- Which configurations and images reset accepts, and the state it answers (R25, R42, R121). -/
theorem State.resetWith_eq_ok_iff {cfg : CoreConfig} {image : List Word} {t : State} :
    State.resetWith cfg image = .ok t ↔ cfg.cache.legal = true ∧ image.length ≤ 8192 ∧
      t = { State.reset with
        mem := loadImage [] 0 image, cache := Hierarchy.reset cfg.cache, quirkNops := cfg.quirkNops } := by
  by_cases hlegal : cfg.cache.legal = true
  · by_cases hfit : image.length ≤ 8192
    · simp [State.resetWith, CoreConfig.legal, imageFits, Config.memCells, hlegal, hfit, eq_comm]
    · simp [State.resetWith, CoreConfig.legal, imageFits, Config.memCells, hlegal, hfit]
  · simp [State.resetWith, CoreConfig.legal, hlegal]

@[simp] theorem Hierarchy.reset_config (cfg : CacheConfig) : (Hierarchy.reset cfg).config = cfg := by
  cases cfg <;> rfl

theorem Hierarchy.mem_reset_levels {cfg : CacheConfig} (hc : cfg.legal = true) {l : Level}
    (hl : l ∈ (Hierarchy.reset cfg).levels) : ∃ g, g.legal = true ∧ l = Level.reset g := by
  cases cfg with
  | none => cases hl
  | one g1 => exact ⟨g1, hc, by simpa [Hierarchy.reset, Hierarchy.levels] using hl⟩
  | two g1 g2 =>
    obtain ⟨h1, h2⟩ : g1.legal = true ∧ g2.legal = true := by simpa [CacheConfig.legal] using hc
    rcases List.mem_pair.mp hl with rfl | rfl
    · exact ⟨g1, h1, rfl⟩
    · exact ⟨g2, h2, rfl⟩

theorem Level.eq_replicate_of_mem_reset {g : Geometry} {S : List Line} (hS : S ∈ (Level.reset g).sets) :
    S = List.replicate g.assoc Line.reset :=
  List.eq_of_mem_replicate hS

theorem Level.reset_shaped {g : Geometry} (hg : g.legal = true) : (Level.reset g).Shaped :=
  ⟨hg, List.length_replicate, fun S hS => by rw [Level.eq_replicate_of_mem_reset hS, List.length_replicate]; rfl⟩

/-- Invalid lines of recency 0 are a set that has not been accessed (R24, R25). -/
theorem recencyInv_replicate_reset (k : Nat) : RecencyInv 0 (List.replicate k Line.reset) where
  invalid := fun l hl _ => by rw [List.eq_of_mem_replicate hl]; rfl
  valid := fun l hl hv => by rw [List.eq_of_mem_replicate hl] at hv; cases hv
  different := List.pairwise_replicate.mpr (.inr nofun)
  suffix := List.pairwise_replicate.mpr (.inr id)
  latest := nofun

theorem uniqueTags_replicate_reset (k : Nat) : uniqueTags (List.replicate k Line.reset) :=
  List.pairwise_replicate.mpr (.inr nofun)

/-! ### The statements, settled -/

/-- Settles O16: part by part for the instruction a running engine executes; nothing moves in a stopped one. -/
theorem everyStepKeepsTheInvariant : Obligations.EveryStepKeepsTheInvariant := by
  intro s t hinv h
  rcases step_next_cases h with ⟨hr, -, e⟩ | ⟨-, e⟩
  · exact {
      memory := e ▸ execState_mem_wf hinv.memory _
      shaped := step_shaped h hinv.shaped
      fault := e ▸ execState_faultConsistent hr (hinv.fault_eq_none hr)
      halt := e ▸ execState_haltConsistent hr }
  · exact e ▸ hinv

/-- Settles O17: a set that a step changes is resolved once, which counts one more access (R138). -/
theorem everyStepKeepsTheRecencyInvariant : Obligations.EveryStepKeepsTheRecencyInvariant := by
  intro s t hshaped hrec h l' hl' S' hS'
  obtain ⟨l, hl, S, hS, hset⟩ := step_setStep h hl' hS'
  obtain ⟨n, hn⟩ := hrec l hl S hS
  exact hset.recencyInv ((hshaped l hl).set_ne_nil hS) hn

/-- Settles O18: without a store a tag is installed only after a lookup that missed (R126). -/
theorem stepsOtherThanStoresKeepTagsUnique : Obligations.StepsOtherThanStoresKeepTagsUnique := by
  intro s t hu hno h l' hl' S' hS'
  obtain ⟨l, hl, S, hS, hset⟩ := step_setStep h hl' hS'
  exact hset.uniqueTags (fun ⟨a, b, imm, hi⟩ => hno a b imm hi) (hu l hl S hS)

/-- Settles O13: the image by `memRead_loadImage`, the arrays by `Level.reset_shaped`. -/
theorem resetGivesTheResetValues : Obligations.ResetGivesTheResetValues := by
  intro cfg image hlegal hfit
  refine ⟨_, State.resetWith_eq_ok_iff.mpr ⟨hlegal, hfit, rfl⟩, rfl, fun r => ?_, rfl, rfl, fun a => ?_,
    Hierarchy.reset_config cfg.cache, rfl, fun l hl => ?_⟩
  · fin_cases r <;> rfl
  · rw [memRead_loadImage image rfl (by omega), if_pos (Nat.zero_le _), Nat.sub_zero, memRead_nil]
  · obtain ⟨g, hg, rfl⟩ := Hierarchy.mem_reset_levels hlegal hl
    obtain ⟨-, hrows, hassoc⟩ := Level.reset_shaped hg
    refine ⟨hrows, fun S hS => ⟨hassoc S hS, fun x hx => ?_⟩⟩
    rw [Level.eq_replicate_of_mem_reset hS] at hx
    exact List.eq_of_mem_replicate hx

/-- Settles O15: a reset engine runs and has no fault, and its sets have been accessed 0 times. -/
theorem everyResetSatisfiesTheInvariants : Obligations.EveryResetSatisfiesTheInvariants := by
  intro cfg image t h
  obtain ⟨hlegal, -, rfl⟩ := State.resetWith_eq_ok_iff.mp h
  refine ⟨⟨loadImage_wf image 0 rfl, fun l hl => ?_, ⟨fun _ => rfl, nofun⟩, nofun⟩, fun l hl S hS => ⟨0, ?_⟩,
    fun l hl S hS => ?_⟩ <;> obtain ⟨g, hg, rfl⟩ := Hierarchy.mem_reset_levels hlegal hl
  · exact Level.reset_shaped hg
  · rw [Level.eq_replicate_of_mem_reset hS]
    exact recencyInv_replicate_reset g.assoc
  · rw [Level.eq_replicate_of_mem_reset hS]
    exact uniqueTags_replicate_reset g.assoc

/-- Settles O20: loads and stores keep every geometry. -/
theorem configurationNeverChanges : Obligations.ConfigurationNeverChanges := by
  intro s t h
  constructor
  · rcases step_cache_cases h with e | ⟨a, e⟩ | ⟨-, a, e⟩ <;> simp [e]
  · rcases step_next_cases h with ⟨-, -, rfl⟩ | ⟨-, rfl⟩
    · exact execState_quirkNops _ s
    · rfl

/-- Settles O27, signal by signal. -/
theorem onlyTheListedStateIsWritten : Obligations.OnlyTheListedStateIsWritten := by
  intro i s t h
  obtain rfl := exec_next_iff.mp h
  refine ⟨fun r hr => execState_reg_of_not_written hr s, fun hmem k => ?_, fun hmem => ?_, fun hcache => ⟨?_, ?_⟩,
    execState_quirkNops i s⟩
  · rcases execState_mem_cases i s with e | ⟨a, b, imm, rfl, -⟩
    · rw [e]
    · exact absurd rfl hmem
  · obtain ⟨a, b, imm, rfl⟩ := eq_sw_of_mem_write hmem
    refine ⟨a, b, imm, rfl, fun k h0 h1 => ?_⟩
    rw [execState_sw, State.advance_mem]
    exact memWrite_frame s.mem _ _ h0 h1
  · rcases execState_cache_cases i s with e | ⟨a, b, imm, rfl, -⟩ | ⟨a, b, imm, rfl, -⟩
    · exact e
    · cases hcache
    · cases hcache
  · exact s.eventsOf_eq_nil (noMemoryAccess_of_cache_none hcache)

/-- Settles O28: `execState_sameButRegs` for the state, `eventsOf_sameButRegs` for the output. -/
theorem onlyTheListedRegistersAreRead : Obligations.OnlyTheListedRegistersAreRead := by
  intro i s s' t t' hreads hx h h'
  obtain rfl := exec_next_iff.mp h
  obtain rfl := exec_next_iff.mp h'
  have hsame := sameButRegs_iff.mpr hx
  obtain ⟨hrest, hwritten⟩ := execState_sameButRegs hsame hreads
  exact ⟨eventsOf_sameButRegs hsame hreads, sameButRegs_iff.mp hrest, hwritten⟩

/-- Settles O59: place by place, through the levels, their sets and the lines of a set. -/
theorem validLinesStayValid : Obligations.ValidLinesStayValid := by
  intro s t h k l hl
  obtain ⟨l', hl', hlevel⟩ := exists_related_of_getElem? (step_levelSteps h) hl
  refine ⟨l', hl', hlevel.sets.length_eq.symm, fun row S hS => ?_⟩
  obtain ⟨S', hS', hset⟩ := exists_related_of_getElem? hlevel.sets hS
  refine ⟨S', hS', hset.length_eq, fun i x hx hv => ?_⟩
  obtain ⟨hi, rfl⟩ := List.getElem?_eq_some_iff.mp hx
  exact ⟨_, List.getElem?_eq_getElem _, hset.valid hi hv⟩

/-- Settles O14: the default reset is one of the resets of O15. -/
theorem defaultResetSatisfiesTheInvariant : Obligations.DefaultResetSatisfiesTheInvariant := by
  obtain ⟨hinv, -, -⟩ := everyResetSatisfiesTheInvariants CoreConfig.default [] State.reset rfl
  exact ⟨rfl, rfl, rfl, hinv⟩

end Sys2Proof.Machine

/-! SUPPORT. The statements about memory (spec/20_memory.md): that nothing but the cache depends on the cache (R40), and
that a store is seen by the next load and the next fetch (R37, R39). For R40 every state is compared with the same state
without a cache: the cacheless machine makes the same step, so two states that differ only in the cache follow the
steps of one cacheless state. -/

namespace Sys2Proof.Machine

/-! ### One step from a state known to run or to have stopped -/

/-- A running engine with a legal configuration executes the word at `pc` (R70 to R72). -/
theorem step_eq_exec {s : State} (hr : s.run = .running) (hl : s.cache.config.legal = true) :
    step s = exec (decode s.fetchWord) s := by
  simp [step, hr, hl]

theorem step_eq_next_execState {s : State} (hr : s.run = .running) (hl : s.cache.config.legal = true) :
    step s = .next (execState (decode s.fetchWord) s) :=
  (step_eq_exec hr hl).trans (exec_eq_next _ s)

/-- A stopped engine answers its own state (R77; log 7). -/
theorem step_eq_self {s : State} (hr : s.run ≠ .running) : step s = .next s := by
  unfold step
  split
  · exact absurd ‹_› hr
  · rfl
  · rfl

/-- No step is refused for any reason but an illegal geometry (R155). -/
theorem exists_step_eq_next {s : State} (hl : s.cache.config.legal = true) : ∃ t, step s = .next t := by
  by_cases hr : s.run = .running
  · exact ⟨_, step_eq_next_execState hr hl⟩
  · exact ⟨s, step_eq_self hr⟩

/-! ### The machine without a cache -/

/-- The state with its cache taken out: the same engine configured with 0 levels. -/
def State.withoutCache (s : State) : State := { s with cache := .none }

/-- To agree on everything but the cache is to be one state without it. -/
theorem sameArchitecture_iff {s s' : State} : SameArchitecture s s' ↔ s.withoutCache = s'.withoutCache := by
  constructor
  · intro ⟨hx, hpc, hrun, hfault, hmem, hquirk⟩
    rw [State.withoutCache, hx, hpc, hrun, hfault, hmem, hquirk, State.withoutCache]
  · intro h
    obtain ⟨hx, hpc, hrun, hfault, hmem, -, hquirk⟩ := State.mk.inj h
    exact ⟨hx, hpc, hrun, hfault, hmem, hquirk⟩

/-- The end of a step does not look at the cache (R76). -/
theorem State.withoutCache_endStep (s : State) (n : Word) :
    (s.endStep n).withoutCache = s.withoutCache.endStep n := by
  unfold State.endStep
  exact apply_ite State.withoutCache _ _ _

/-- No instruction looks at the cache for anything but the cache: taken out before or after it, the state is the
same (R40). -/
theorem withoutCache_execState (i : Instr) (s : State) :
    (execState i s).withoutCache = execState i s.withoutCache := by
  by_cases hop : ∃ f, i.op = .invalid f
  · obtain ⟨f, hf⟩ := hop
    obtain rfl := eq_instr_of_op_invalid hf
    rw [execState_invalid, execState_invalid, apply_ite State.withoutCache, State.advance,
      State.withoutCache_endStep]
    rfl
  · cases i with
    | add a b c | sub a b c | or a b c | and a b c | slt a b c => exact (s.writeReg c _).withoutCache_endStep _
    | addi a b imm | slti a b imm => exact (s.writeReg b _).withoutCache_endStep _
    | jal target => exact (s.writeReg _ _).withoutCache_endStep _
    | j target | jr a | jeq a b imm => exact s.withoutCache_endStep _
    | lw a b imm => exact ((s.cacheLoad _).writeReg b _).withoutCache_endStep _
    | sw a b imm => exact ((s.storeCell _ _).cacheStore _).withoutCache_endStep _
    | _ => exact absurd ⟨_, rfl⟩ hop

/-- The cacheless machine makes the same step (R40). -/
theorem step_withoutCache {s t : State} (h : step s = .next t) : step s.withoutCache = .next t.withoutCache := by
  rcases step_next_cases h with ⟨hr, -, rfl⟩ | ⟨hr, rfl⟩
  · rw [withoutCache_execState]
    exact step_eq_next_execState (s := s.withoutCache) hr rfl
  · exact step_eq_self (s := t.withoutCache) hr

/-- A run of one more step is that step and then the run. -/
theorem run_succ (M : Host.Core) {s t : M.State} (h : M.step s = .next t) (n : Nat) :
    M.run (n + 1) s = M.run n t := by
  rw [Host.Core.run, h]

/-- Under a legal configuration every run answers a next state, and the cacheless machine makes the same run. -/
theorem exists_run_withoutCache (n : Nat) {s : State} (hl : s.cache.config.legal = true) :
    ∃ t : State, core.run n s = .next t ∧ core.run n s.withoutCache = .next t.withoutCache := by
  induction n generalizing s with
  | zero => exact ⟨s, rfl, rfl⟩
  | succ n ih =>
    obtain ⟨u, hu⟩ := exists_step_eq_next hl
    obtain ⟨hconfig, -⟩ := configurationNeverChanges s u hu
    obtain ⟨t, hrun, hrun'⟩ := ih (hconfig ▸ hl)
    exact ⟨t, (run_succ core hu n).trans hrun, (run_succ core (step_withoutCache hu) n).trans hrun'⟩

/-- Reset accepts legal configurations alone, and keeps them (R121, R162). -/
theorem legal_of_resetWith {cfg : CoreConfig} {image : List Word} {s : State}
    (h : State.resetWith cfg image = .ok s) : s.cache.config.legal = true := by
  obtain ⟨hlegal, -, rfl⟩ := State.resetWith_eq_ok_iff.mp h
  rwa [Hierarchy.reset_config]

/-- Resets of one image with one quirk set differ in the cache alone (R25). -/
theorem resetWith_sameArchitecture {cfg cfg' : CoreConfig} {image : List Word} {s s' : State}
    (hquirk : cfg.quirkNops = cfg'.quirkNops) (h : State.resetWith cfg image = .ok s)
    (h' : State.resetWith cfg' image = .ok s') : SameArchitecture s s' := by
  obtain ⟨-, -, rfl⟩ := State.resetWith_eq_ok_iff.mp h
  obtain ⟨-, -, rfl⟩ := State.resetWith_eq_ok_iff.mp h'
  exact ⟨rfl, rfl, rfl, rfl, rfl, hquirk⟩

/-! ### A store seen by the next instruction -/

/-- After a store its cell holds the stored register (R37, R107). -/
theorem memRead_execState_sw {s : State} (hm : s.mem.wf = true) (a b : RegIdx) (imm : BitVec 7) :
    memRead (execState (.sw a b imm) s).mem (s.ea a imm) = s.reg b := by
  rw [execState_sw, State.advance_mem]
  exact memRead_memWrite_same _ _ hm

/-- After a load its register, if it is not register 0, holds the cell read (R106). -/
theorem reg_execState_lw (s : State) (a : RegIdx) {b : RegIdx} (hb : b ≠ 0) (imm : BitVec 7) :
    (execState (.lw a b imm) s).reg b = memRead s.mem (s.ea a imm) := by
  rw [execState_lw, State.reg_advance, State.reg_writeReg, if_pos ⟨rfl, hb⟩]

/-! ### The statements about memory, settled -/

/-- Settles O21: both steps are the one step of the state without a cache. -/
theorem cacheNeverAffectsTheArchitecture : Obligations.CacheNeverAffectsTheArchitecture := by
  intro s s' t t' hsame h h'
  have hstep := step_withoutCache h
  rw [sameArchitecture_iff.mp hsame, step_withoutCache h'] at hstep
  exact sameArchitecture_iff.mpr (Host.Outcome.next.inj hstep).symm

/-- Settles O22: both resets are one state without their caches, and both runs follow its run. -/
theorem runsAgreeUnderEveryConfiguration : Obligations.RunsAgreeUnderEveryConfiguration := by
  intro cfg cfg' image s s' n hquirk h h'
  obtain ⟨t, hrun, hcacheless⟩ := exists_run_withoutCache n (legal_of_resetWith h)
  obtain ⟨t', hrun', hcacheless'⟩ := exists_run_withoutCache n (legal_of_resetWith h')
  rw [sameArchitecture_iff.mp (resetWith_sameArchitecture hquirk h h'), hcacheless'] at hcacheless
  exact ⟨t, t', hrun, hrun', sameArchitecture_iff.mpr (Host.Outcome.next.inj hcacheless).symm⟩

/-- Settles O29: the store goes on at `pc + 1`, the cell it wrote, in a running engine with the same configuration. -/
theorem aStoredInstructionRunsNext : Obligations.AStoredInstructionRunsNext := by
  intro s t a b imm hm hr hl hdecode hea h
  rw [step_eq_next_execState hr hl, hdecode] at h
  obtain rfl := Host.Outcome.next.inj h
  have hpc : (execState (.sw a b imm) s).pc = s.ea a imm := by simp [execState_sw, hea]
  have hfetch : (execState (.sw a b imm) s).fetchWord = s.reg b := by
    rw [State.fetchWord, hpc, memRead_execState_sw hm]
  rw [step_eq_exec (by simp [execState_sw, hr]) (by simp [execState_sw, hl]), hfetch]

/-- Settles O30: the load reads the cell of `memRead_execState_sw`. -/
theorem aLoadReadsTheStoreBeforeIt : Obligations.ALoadReadsTheStoreBeforeIt := by
  intro s t u a b c d i j hm hsw hea hd hlw
  obtain rfl := exec_next_iff.mp hsw
  obtain rfl := exec_next_iff.mp hlw
  rw [reg_execState_lw _ _ hd, hea, memRead_execState_sw hm]

end Sys2Proof.Machine

/-! SUPPORT. The statements about the decoder and the encoder (spec/30_encoding.md). A row of spec/opcode_table.json is
an opcode class and, in class 0, a function code: the opcode map selects an operation exactly on its class and code, and
the mask and match columns ask for exactly these. So a word lies in the row it decodes to, and what is left of a round
trip is that the fields an operation uses come back as they were. -/

namespace Sys2Proof

/-! ### The fields as slices of the word (R55) -/

section
variable (w : Word)

theorem fields_cls_toNat : (fields w).cls.toNat = w.toNat / 8192 := by
  rw [fields, BitVec.extractLsb'_toNat, Nat.shiftRight_eq_div_pow]
  omega

theorem fields_rA_val : (fields w).rA.val = w.toNat / 1024 % 8 :=
  (BitVec.extractLsb'_toNat 10 3 w).trans (by rw [Nat.shiftRight_eq_div_pow])

theorem fields_rB_val : (fields w).rB.val = w.toNat / 128 % 8 :=
  (BitVec.extractLsb'_toNat 7 3 w).trans (by rw [Nat.shiftRight_eq_div_pow])

theorem fields_rC_val : (fields w).rC.val = w.toNat / 16 % 8 :=
  (BitVec.extractLsb'_toNat 4 3 w).trans (by rw [Nat.shiftRight_eq_div_pow])

theorem fields_func_toNat : (fields w).func.toNat = w.toNat % 16 := BitVec.extractLsb'_toNat 0 4 w

theorem fields_imm7_toNat : (fields w).imm7.toNat = w.toNat % 128 := BitVec.extractLsb'_toNat 0 7 w

theorem fields_imm13_toNat : (fields w).imm13.toNat = w.toNat % 8192 := BitVec.extractLsb'_toNat 0 13 w

end

/-! ### The sign extension (R56) -/

/-- Filling bits 7 to 15 from bit 6 is the library's sign extension. -/
theorem sext16_eq_signExtend (imm : BitVec 7) : sext16 imm = imm.signExtend 16 := by
  have hmsb : imm.msb = imm.getLsbD 6 := rfl
  apply BitVec.eq_of_getLsbD_eq
  intro i hi
  rw [BitVec.getLsbD_signExtend, hmsb, sext16]
  cases imm.getLsbD 6 <;> interval_cases i <;> simp

theorem sext16_toInt (imm : BitVec 7) : (sext16 imm).toInt = imm.toInt := by
  rw [sext16_eq_signExtend, BitVec.toInt_signExtend_of_le (by omega)]

theorem sext16_toNat (imm : BitVec 7) :
    (sext16 imm).toNat = if imm.toNat < 64 then imm.toNat else imm.toNat + 65408 := by
  have hwide : (imm.setWidth 16).toNat = imm.toNat := by bv_omega
  rw [sext16_eq_signExtend, BitVec.toNat_signExtend, hwide, BitVec.msb_eq_decide]
  by_cases h : imm.toNat < 64
  · simp [h]
  · simp [h, Nat.le_of_not_lt h]

/-! ### The words of a format, rebuilt from their fields (R52 to R54) -/

/-- A word of class 0 is the RRR word of its fields. -/
theorem encodeRRR_fields {w : Word} {f : BitVec 4} (hcls : (fields w).cls = 0) (hfunc : (fields w).func = f) :
    encodeRRR (fields w).rA (fields w).rB (fields w).rC f = w := by
  calc encodeRRR (fields w).rA (fields w).rB (fields w).rC f
    _ = (fields w).cls ++ w.extractLsb' 10 3 ++ w.extractLsb' 7 3 ++ w.extractLsb' 4 3 ++ (fields w).func := by
      rw [hcls, hfunc]
      rfl
    _ = w.extractLsb' 0 16 := by
      simp only [fields, BitVec.extractLsb'_append_extractLsb'_eq_extractLsb']
    _ = w := BitVec.extractLsb'_eq_self

theorem encodeRRI_fields {w : Word} {k : BitVec 3} (hcls : (fields w).cls = k) :
    encodeRRI k (fields w).rA (fields w).rB (fields w).imm7 = w := by
  calc encodeRRI k (fields w).rA (fields w).rB (fields w).imm7
    _ = w.extractLsb' 13 3 ++ w.extractLsb' 10 3 ++ w.extractLsb' 7 3 ++ w.extractLsb' 0 7 := by
      rw [← hcls]
      rfl
    _ = w.extractLsb' 0 16 := by
      simp only [BitVec.extractLsb'_append_extractLsb'_eq_extractLsb']
    _ = w := BitVec.extractLsb'_eq_self

theorem encodeJ_fields {w : Word} {k : BitVec 3} (hcls : (fields w).cls = k) : encodeJ k (fields w).imm13 = w := by
  calc encodeJ k (fields w).imm13
    _ = w.extractLsb' 13 3 ++ w.extractLsb' 0 13 := by
      rw [← hcls]
      rfl
    _ = w.extractLsb' 0 16 := BitVec.extractLsb'_append_extractLsb'_eq_extractLsb' rfl
    _ = w := BitVec.extractLsb'_eq_self

/-- The bits of a word that `jr` reads are its class, `rA` and function code (R61). -/
theorem and_jrMask (w : Word) :
    w &&& 0xFC0F = (fields w).cls ++ w.extractLsb' 10 3 ++ 0#6 ++ (fields w).func := by
  apply BitVec.eq_of_getLsbD_eq
  intro i hi
  simp only [fields]
  rw [BitVec.getLsbD_append, BitVec.getLsbD_append, BitVec.getLsbD_append]
  interval_cases i <;> simp

/-- With zeros in the don't-care bits of `jr` the RRR word is the word but for these bits (R61). -/
theorem encodeRRR_jr_fields {w : Word} {f : BitVec 4} (hcls : (fields w).cls = 0) (hfunc : (fields w).func = f) :
    encodeRRR (fields w).rA 0 0 f = w &&& 0xFC0F := by
  rw [and_jrMask, hcls, hfunc]
  exact congrArg (· ++ f) (BitVec.append_assoc (x₁ := 0#3 ++ w.extractLsb' 10 3) (x₂ := 0#3) (x₃ := 0#3))

/-- With zeros in all register fields the RRR word is the word but for these fields (R140). -/
theorem encodeRRR_zero_fields {w : Word} {f : BitVec 4} (hcls : (fields w).cls = 0) (hfunc : (fields w).func = f) :
    encodeRRR 0 0 0 f = w &&& 0xE00F := by
  rw [and_funcMask, hcls, hfunc]
  rfl

/-! ### The opcode map (R58 to R60) -/

/-- The opcode class of an operation's row (R58). -/
def Op.cls : Op → BitVec 3
  | .add | .sub | .or | .and | .slt | .jr | .invalid _ => 0
  | .addi => 1
  | .j => 2
  | .jal => 3
  | .lw => 4
  | .sw => 5
  | .jeq => 6
  | .slti => 7

/-- The function code of a class-0 operation's row (R59, R60); the rows of the other classes have none, and 0 stands
there unread. -/
def Op.func : Op → BitVec 4
  | .sub => 1
  | .or => 2
  | .and => 3
  | .slt => 4
  | .jr => 8
  | .invalid f => f.code
  | .add | .addi | .j | .jal | .lw | .sw | .jeq | .slti => 0

/-- A word's class and function code are those of an operation's row. -/
def Fields.InRow (f : Fields) (o : Op) : Prop := f.cls = o.cls ∧ (o.cls = 0 → f.func = o.func)

theorem funcOp_cls_func (f : BitVec 4) : (funcOp f).cls = 0 ∧ (funcOp f).func = f := by
  revert f
  decide

theorem opOf_cls (k : BitVec 3) (f : BitVec 4) : (opOf k f).cls = k := by
  obtain ⟨k⟩ := k
  fin_cases k
  case _ => exact (funcOp_cls_func f).1
  all_goals rfl

/-- The opcode map selects an operation exactly on its row's class and, in class 0, its row's function code. -/
theorem opOf_eq_iff (f : Fields) (o : Op) : opOf f.cls f.func = o ↔ f.InRow o := by
  constructor
  · rintro rfl
    refine ⟨(opOf_cls _ _).symm, fun hzero => ?_⟩
    rw [opOf_cls] at hzero
    rw [hzero]
    exact (funcOp_cls_func f.func).2.symm
  · rintro ⟨hcls, hfunc⟩
    rw [hcls]
    cases o with
    | invalid g =>
      rw [hfunc rfl]
      cases g <;> rfl
    | add | sub | or | and | slt | jr =>
      rw [hfunc rfl]
      rfl
    | addi | j | jal | lw | sw | jeq | slti => rfl

/-! ### The table's rows (spec/opcode_table.json) -/

theorem append_eq_append_iff {m n : Nat} {x y : BitVec m} {u v : BitVec n} : x ++ u = y ++ v ↔ x = y ∧ u = v := by
  constructor
  · intro h
    have hhigh := congrArg (BitVec.extractLsb' n m) h
    have hlow := congrArg (BitVec.extractLsb' 0 n) h
    rw [BitVec.extractLsb'_append_eq_left, BitVec.extractLsb'_append_eq_left] at hhigh
    rw [BitVec.extractLsb'_append_eq_right, BitVec.extractLsb'_append_eq_right] at hlow
    exact ⟨hhigh, hlow⟩
  · rintro ⟨rfl, rfl⟩
    rfl

/-- A row of class 0 asks for the class and the function code (R59). -/
theorem Op.mask_pattern_of_cls_eq_zero {o : Op} (h : o.cls = 0) :
    o.mask = 0xE00F ∧ o.pattern = 0#3 ++ 0#9 ++ o.func := by
  cases o with
  | invalid f => cases f <;> exact ⟨rfl, rfl⟩
  | add | sub | or | and | slt | jr => exact ⟨rfl, rfl⟩
  | addi | j | jal | lw | sw | jeq | slti => cases h

/-- A row of another class asks for the class alone (R58). -/
theorem Op.mask_pattern_of_cls_ne_zero {o : Op} (h : o.cls ≠ 0) :
    o.mask = 0xE000 ∧ o.pattern = o.cls ++ 0#13 := by
  cases o with
  | add | sub | or | and | slt | jr | invalid f => exact absurd rfl h
  | addi | j | jal | lw | sw | jeq | slti => exact ⟨rfl, rfl⟩

/-- The mask and match columns ask for exactly the row's class and function code. -/
theorem and_mask_eq_pattern_iff (w : Word) (o : Op) : w &&& o.mask = o.pattern ↔ (fields w).InRow o := by
  by_cases h : o.cls = 0
  · obtain ⟨hmask, hpattern⟩ := Op.mask_pattern_of_cls_eq_zero h
    rw [hmask, hpattern, and_funcMask, append_eq_append_iff, append_eq_append_iff, Fields.InRow]
    simp [h]
  · obtain ⟨hmask, hpattern⟩ := Op.mask_pattern_of_cls_ne_zero h
    rw [hmask, hpattern, and_classMask, append_eq_append_iff, Fields.InRow]
    exact and_congr_right fun _ => iff_of_true rfl fun hzero => absurd hzero h

/-! ### The decoded instruction -/

/-- The instruction of an operation with the fields it uses as operands (R58, R59). -/
def Op.instr (o : Op) (f : Fields) : Instr :=
  match o with
  | .add => .add f.rA f.rB f.rC
  | .sub => .sub f.rA f.rB f.rC
  | .or => .or f.rA f.rB f.rC
  | .and => .and f.rA f.rB f.rC
  | .slt => .slt f.rA f.rB f.rC
  | .jr => .jr f.rA
  | .invalid g => g.instr
  | .addi => .addi f.rA f.rB f.imm7
  | .j => .j f.imm13
  | .jal => .jal f.imm13
  | .lw => .lw f.rA f.rB f.imm7
  | .sw => .sw f.rA f.rB f.imm7
  | .jeq => .jeq f.rA f.rB f.imm7
  | .slti => .slti f.rA f.rB f.imm7

@[simp] theorem InvalidFunc.instr_op (f : InvalidFunc) : f.instr.op = .invalid f := by
  cases f <;> rfl

@[simp] theorem Op.instr_op (o : Op) (f : Fields) : (o.instr f).op = o := by
  cases o with
  | invalid g => exact g.instr_op
  | _ => rfl

/-- A word decodes to the instruction of the operation its class and function code select (R62). -/
theorem decode_eq_instr (w : Word) : decode w = (opOf (fields w).cls (fields w).func).instr (fields w) := by
  rw [decode, Fields.instr]
  cases opOf (fields w).cls (fields w).func <;> rfl

theorem decode_op (w : Word) : (decode w).op = opOf (fields w).cls (fields w).func := by
  rw [decode_eq_instr, Op.instr_op]

theorem decode_op_eq_iff (w : Word) (o : Op) : (decode w).op = o ↔ (fields w).InRow o := by
  rw [decode_op, opOf_eq_iff]

/-- A word of a row decodes to that row's instruction with the word's fields as operands. -/
theorem decode_of_inRow {w : Word} {o : Op} (h : (fields w).InRow o) : decode w = o.instr (fields w) := by
  rw [decode_eq_instr, (opOf_eq_iff _ _).mpr h]

/-! ### Encoding and decoding -/

/-- Every instruction is encoded in its own row. -/
theorem encode_inRow (i : Instr) : (fields (encode i)).InRow i.op := by
  rw [← and_mask_eq_pattern_iff]
  cases i with
  | add a b c | sub a b c | or a b c | and a b c | slt a b c => exact Laws.TableRow.encodeRRR_row a b c _
  | jr a => exact Laws.TableRow.encodeRRR_row a 0 0 _
  | addi a b imm | lw a b imm | sw a b imm | jeq a b imm | slti a b imm =>
    exact Laws.TableRow.encodeRRI_row _ a b imm
  | j target | jal target => exact Laws.TableRow.encodeJ_row _ target
  | _ => exact Laws.TableRow.encodeRRR_row 0 0 0 _

/-- The fields an instruction uses are its operands again after it is encoded (R52 to R54). -/
theorem instr_fields_encode (i : Instr) : i.op.instr (fields (encode i)) = i := by
  cases i with
  | add a b c | sub a b c | or a b c | and a b c | slt a b c =>
    simp only [Instr.op, Op.instr, encode, encodeRRR_rA, encodeRRR_rB, encodeRRR_rC]
  | jr a => simp only [Instr.op, Op.instr, encode, encodeRRR_rA]
  | addi a b imm | lw a b imm | sw a b imm | jeq a b imm | slti a b imm =>
    simp only [Instr.op, Op.instr, encode, encodeRRI_rA, encodeRRI_rB, encodeRRI_imm7]
  | j target | jal target => simp only [Instr.op, Op.instr, encode, encodeJ_imm13]
  | _ => rfl

theorem encode_invalid (f : InvalidFunc) : encode f.instr = encodeRRR 0 0 0 f.code := by
  cases f <;> rfl

/-- Of a word of its row an operation's instruction keeps the bits that it uses (R61, R140; log 17). -/
theorem encode_instr_of_inRow {w : Word} {o : Op} (h : (fields w).InRow o) :
    encode (o.instr (fields w)) = w &&& o.usedBits := by
  obtain ⟨hcls, hfunc⟩ := h
  have hall : w = w &&& 0xFFFF := BitVec.and_allOnes.symm
  cases o with
  | add | sub | or | and | slt => exact (encodeRRR_fields hcls (hfunc rfl)).trans hall
  | jr => exact encodeRRR_jr_fields hcls (hfunc rfl)
  | invalid f => exact (encode_invalid f).trans (encodeRRR_zero_fields hcls (hfunc rfl))
  | addi | lw | sw | jeq | slti => exact (encodeRRI_fields hcls).trans hall
  | j | jal => exact (encodeJ_fields hcls).trans hall

/-! ### The ten unused function codes (R60) -/

/-- The unused function codes, in the order of their numbers. -/
def InvalidFunc.all : List InvalidFunc := [.f5, .f6, .f7, .f9, .f10, .f11, .f12, .f13, .f14, .f15]

theorem InvalidFunc.mem_all (f : InvalidFunc) : f ∈ InvalidFunc.all := by
  cases f <;> decide

theorem exists_code_eq_iff (x : BitVec 4) :
    (∃ f : InvalidFunc, x = f.code) ↔ x.toNat ∈ [5, 6, 7, 9, 10, 11, 12, 13, 14, 15] := by
  have hcodes : InvalidFunc.all.map (fun f => f.code.toNat) = [5, 6, 7, 9, 10, 11, 12, 13, 14, 15] := rfl
  rw [← hcodes, List.mem_map]
  constructor
  · rintro ⟨f, rfl⟩
    exact ⟨f, f.mem_all, rfl⟩
  · rintro ⟨f, -, hcode⟩
    exact ⟨f, BitVec.eq_of_toNat_eq hcode.symm⟩

theorem decode_eq_invalid_iff (w : Word) (f : InvalidFunc) :
    decode w = f.instr ↔ (fields w).cls = 0 ∧ (fields w).func = f.code := by
  have hop : decode w = f.instr ↔ (decode w).op = .invalid f :=
    ⟨fun h => h ▸ f.instr_op, Machine.eq_instr_of_op_invalid⟩
  rw [hop, decode_op_eq_iff, Fields.InRow]
  exact and_congr_right fun _ => ⟨fun h => h rfl, fun h _ => h⟩

/-! ### The statements about the encoding, settled -/

/-- Settles O1: an instruction is encoded in its own row, and its operands are the fields that row uses. -/
theorem decodeInvertsEncode : Obligations.DecodeInvertsEncode := by
  intro i
  rw [decode_of_inRow (encode_inRow i), instr_fields_encode]

/-- Settles O2: the fields of a decoded word, put together again, are its used bits. -/
theorem encodeOfDecodeKeepsUsedBits : Obligations.EncodeOfDecodeKeepsUsedBits := by
  intro w
  have hrow : (fields w).InRow (decode w).op := (decode_op_eq_iff w _).mp rfl
  rw [← encode_instr_of_inRow hrow, ← decode_of_inRow hrow]

/-- Settles O3: to match a row and to decode to its operation is to have the row's class and function code. -/
theorem tableRowsPartitionTheWords : Obligations.TableRowsPartitionTheWords := by
  intro w o
  rw [and_mask_eq_pattern_iff, decode_op_eq_iff]

/-- Settles O4, with class and function code as the slices of R55. -/
theorem invalidWordsAreTheTenCodes : Obligations.InvalidWordsAreTheTenCodes := by
  intro w
  simp only [decode_eq_invalid_iff, exists_and_left]
  rw [exists_code_eq_iff, ← BitVec.toNat_inj, fields_cls_toNat, fields_func_toNat]
  rfl

/-- Settles O5; the sign-extended immediate is the library's sign extension, which is the integer's word. -/
theorem rawFieldsAreSlicesOfTheWord : Obligations.RawFieldsAreSlicesOfTheWord := fun w =>
  ⟨fields_cls_toNat w, fields_rA_val w, fields_rB_val w, fields_rC_val w, fields_func_toNat w, fields_imm7_toNat w,
    fields_imm13_toNat w, sext16_eq_signExtend _⟩

/-- Settles O6: descriptor and instruction take their operation from the one opcode map. -/
theorem descriptorHoldsOpAndFields : Obligations.DescriptorHoldsOpAndFields := fun w =>
  ⟨(decode_op w).symm, rfl, rfl, rfl, rfl, rfl, rfl⟩

/-- Settles O7. -/
theorem signExtensionFillsFromBitSix : Obligations.SignExtensionFillsFromBitSix := fun imm =>
  ⟨sext16_toNat imm, sext16_toInt imm⟩

/-- Settles O8: the decoder computes each of the fourteen. -/
theorem wordsWrittenOutDecode : Obligations.WordsWrittenOutDecode :=
  ⟨rfl, rfl, rfl, rfl, rfl, rfl, rfl, rfl, rfl, rfl, rfl, rfl, rfl, rfl⟩

end Sys2Proof

/-! SUPPORT. The statements about the execution step (spec/40_execution_step.md): which instruction a running engine
executes (R70 to R72), that a stopped engine is left alone (R77), what the faulting step does (R78) and which
instructions halt (R79). -/

namespace Sys2Proof.Machine

/-! ### The faulting step (R78) -/

/-- A word whose class is 0 and whose low four bits are an unused function code is that code's instruction (R60). -/
theorem decode_eq_invalid_of_slices {w : Word} {f : InvalidFunc} (hcls : w.toNat / 8192 = 0)
    (hcode : w.toNat % 16 = f.code.toNat) : decode w = f.instr := by
  refine (decode_eq_invalid_iff w f).mpr ⟨BitVec.eq_of_toNat_eq ?_, BitVec.eq_of_toNat_eq ?_⟩
  · rw [fields_cls_toNat, hcls]
    rfl
  · rw [fields_func_toNat, hcode]

/-- An unused function code neither loads nor stores (R63). -/
theorem noMemoryAccess_invalid (f : InvalidFunc) : noMemoryAccess f.instr :=
  noMemoryAccess_of_cache_none (by cases f <;> rfl)

/-! ### A word placed for the next fetch -/

/-- The word placed in the cell at `pc` is the one fetched (R71; log 3). -/
theorem State.fetchWord_withFetchWord {s : State} (hm : s.mem.wf = true) (w : Word) :
    (s.withFetchWord 16 w.toNat).fetchWord = w := by
  have hword : BitVec.ofNat 16 (w.toNat % 2 ^ 16) = w := by
    rw [Nat.mod_eq_of_lt w.isLt, BitVec.ofNat_toNat, BitVec.setWidth_eq]
  rw [State.withFetchWord, hword]
  exact memRead_memWrite_same s.pc w hm

/-! ### The statements about the step, settled -/

/-- Settles O26: a step of a running engine is the instruction at `pc`, and `execState_halted_iff` says when that
instruction halts. -/
theorem haltsExactlyOnASelfTransfer : Obligations.HaltsExactlyOnASelfTransfer := by
  intro s t hr h
  rcases step_next_cases h with ⟨-, -, rfl⟩ | ⟨hstopped, -⟩
  · exact execState_halted_iff hr _
  · exact absurd hr hstopped

/-- Settles O9: the cell at `pc` is the word fetched. -/
theorem stepRunsTheDecodedInstruction : Obligations.StepRunsTheDecodedInstruction := by
  rintro s i hr hl rfl
  exact ⟨step_eq_exec hr hl, State.stepEvents_running hr hl⟩

/-- Settles O10: HALTED and FAULTED are the two ways not to run. -/
theorem terminalStatesNeverChange : Obligations.TerminalStatesNeverChange := by
  intro s h
  have hstopped : s.run ≠ .running := by
    rcases h with h | h <;> rw [h] <;> decide
  exact ⟨step_eq_self hstopped, State.stepEvents_stopped hstopped⟩

/-- Settles O25: the word decodes to its code's instruction, which outside the quirk set takes the exception. -/
theorem faultingStepChangesNothingElse : Obligations.FaultingStepChangesNothingElse := by
  intro s f hr hl hcls hcode hquirk
  have hdecode : decode s.fetchWord = f.instr := decode_eq_invalid_of_slices hcls hcode
  constructor
  · rw [step_eq_next_execState hr hl, hdecode, execState_invalid, if_neg hquirk, State.takeInvalidFunction]
  · rw [State.stepEvents_running hr hl, hdecode, s.eventsOf_eq_nil (noMemoryAccess_invalid f)]

/-- Settles O32: placing a word changes only its cell, so the engine still runs with its configuration. -/
theorem aPlacedWordRunsNext : Obligations.APlacedWordRunsNext := by
  intro s w hm hr hl
  have hstep : step (s.withFetchWord 16 w.toNat) =
      exec (decode (s.withFetchWord 16 w.toNat).fetchWord) (s.withFetchWord 16 w.toNat) := step_eq_exec hr hl
  rwa [State.fetchWord_withFetchWord hm] at hstep

end Sys2Proof.Machine

/-! SUPPORT. The statements about register-register arithmetic (spec/41_alu_register.md R80 to R84). Its five
instructions differ only in the value they compute. What they share is said once, in `exec_effect_of_writeReg_advance`:
an instruction that writes one register and advances changes nothing else. The words of the statements, numbers made of
fields (R52), are the encoder's words, so that they decode by `decodeInvertsEncode`. -/

namespace Sys2Proof

/-! ### Words by their fields, and the encoder's words (R52) -/

/-- Bits put side by side, as a number. -/
theorem toNat_append_eq_add {m n : Nat} (x : BitVec m) (y : BitVec n) :
    (x ++ y).toNat = x.toNat * 2 ^ n + y.toNat := by
  rw [BitVec.toNat_append, ← Nat.shiftLeft_add_eq_or_of_lt y.isLt, Nat.shiftLeft_eq]

theorem encodeRRR_toNat (a b c : RegIdx) (f : BitVec 4) :
    (encodeRRR a b c f).toNat = a.val * 1024 + b.val * 128 + c.val * 16 + f.toNat := by
  simp only [encodeRRR, toNat_append_eq_add, BitVec.toNat_ofFin, BitVec.toNat_ofNat]
  omega

theorem wordRRR_eq_encodeRRR (a b c : RegIdx) (f : BitVec 4) :
    Machine.wordRRR a b c f.toNat = encodeRRR a b c f := by
  rw [Machine.wordRRR, ← encodeRRR_toNat, BitVec.ofNat_toNat, BitVec.setWidth_eq]

/-- The word of an instruction's fields decodes to the instruction, if the encoder writes these fields. -/
theorem decode_wordRRR {i : Instr} {a b c : RegIdx} {f : BitVec 4} (h : encode i = encodeRRR a b c f) :
    decode (Machine.wordRRR a b c f.toNat) = i := by
  rw [wordRRR_eq_encodeRRR, ← h, decodeInvertsEncode]

end Sys2Proof

namespace Sys2Proof.Machine

/-! ### An instruction that writes one register and advances -/

section
variable (s : State) (d : RegIdx) (v : Word)

/-- The end of a step is no register write (R13, R76). -/
theorem regUpdate_writeReg_advance : RegUpdate s (s.writeReg d v).advance d v := by
  obtain ⟨hdest, hother⟩ := s.writeReg_regUpdate d v
  exact ⟨(State.reg_advance _ d).trans hdest, fun r hr => (State.reg_advance _ r).trans (hother r hr)⟩

/-- The address after 8191 is 0 (R31, R74). -/
theorem endsInSequence_writeReg_advance : EndsInSequence s (s.writeReg d v).advance := by
  refine ⟨?_, State.advance_run _⟩
  rw [State.advance_pc, State.writeReg_pc, BitVec.toNat_add]
  rfl

variable {s d v}

/-- Common to the instructions whose result goes to a register and whose next-PC is `pc + 1`: what they change, and
that they change nothing else (R63, R74, R134). -/
theorem exec_effect_of_writeReg_advance {i : Instr} (hexec : exec i s = .next (s.writeReg d v).advance)
    (hcache : (controlSignals i).cache = .none) :
    ∃ t, exec i s = .next t ∧ RegUpdate s t d v ∧
      EndsInSequence s t ∧ SameMemory s t ∧ SameCache s t ∧ NoEvents i s ∧ SameControl s t := by
  have hmem : (s.writeReg d v).advance.mem = s.mem := by simp
  exact ⟨_, hexec, regUpdate_writeReg_advance s d v, endsInSequence_writeReg_advance s d v,
    fun k => congrArg (·.readByte k) hmem, by simp [SameCache],
    s.eventsOf_eq_nil (noMemoryAccess_of_cache_none hcache), by simp [SameControl]⟩

end

/-! ### The values computed, as integers reduced modulo 65536 (R85) -/

theorem add_eq_ofNat_mod (x y : Word) : x + y = BitVec.ofNat 16 ((x.toNat + y.toNat) % 65536) := by
  apply BitVec.eq_of_toNat_eq
  rw [BitVec.toNat_add, BitVec.toNat_ofNat, Nat.mod_mod]

theorem sub_eq_ofInt_mod (x y : Word) : x - y = BitVec.ofInt 16 (((x.toNat : Int) - (y.toNat : Int)) % 65536) := by
  apply BitVec.eq_of_toNat_eq
  rw [BitVec.toNat_sub, BitVec.toNat_ofInt]
  omega

/-! ### What each of the five answers -/

section
variable (s : State) (a b c : RegIdx)

theorem exec_add : exec (.add a b c) s = .next (s.writeReg c (s.reg a + s.reg b)).advance := rfl
theorem exec_sub : exec (.sub a b c) s = .next (s.writeReg c (s.reg a - s.reg b)).advance := rfl
theorem exec_or : exec (.or a b c) s = .next (s.writeReg c (s.reg a ||| s.reg b)).advance := rfl
theorem exec_and : exec (.and a b c) s = .next (s.writeReg c (s.reg a &&& s.reg b)).advance := rfl
theorem exec_slt : exec (.slt a b c) s = .next (s.writeReg c (lessThan (s.reg a) (s.reg b))).advance := rfl

end

/-! ### The statements about register-register arithmetic, settled -/

/-- Settles O34: the sum of two Words is the sum of their numbers modulo 65536. -/
theorem addWrapsIntoItsDestination : Obligations.AddWrapsIntoItsDestination := by
  intro a b c s
  rw [← add_eq_ofNat_mod]
  exact ⟨decode_wordRRR (f := 0) rfl, exec_effect_of_writeReg_advance (exec_add s a b c) rfl⟩

/-- Settles O35: the difference of two Words is the difference of their numbers modulo 65536. -/
theorem subWrapsIntoItsDestination : Obligations.SubWrapsIntoItsDestination := by
  intro a b c s
  rw [← sub_eq_ofInt_mod]
  exact ⟨decode_wordRRR (f := 1) rfl, exec_effect_of_writeReg_advance (exec_sub s a b c) rfl⟩

/-- Settles O36: the value written is `x[rA] ||| x[rB]`. -/
theorem orJoinsAllSixteenBits : Obligations.OrJoinsAllSixteenBits := by
  intro a b c s
  obtain ⟨t, hexec, hreg, hrest⟩ := exec_effect_of_writeReg_advance (exec_or s a b c) rfl
  exact ⟨decode_wordRRR (f := 2) rfl, t, _, hexec, hreg, fun _ _ => BitVec.getLsbD_or, hrest⟩

/-- Settles O37: the value written is `x[rA] &&& x[rB]`. -/
theorem andMeetsAllSixteenBits : Obligations.AndMeetsAllSixteenBits := by
  intro a b c s
  obtain ⟨t, hexec, hreg, hrest⟩ := exec_effect_of_writeReg_advance (exec_and s a b c) rfl
  exact ⟨decode_wordRRR (f := 3) rfl, t, _, hexec, hreg, fun _ _ => BitVec.getLsbD_and, hrest⟩

/-- Settles O38: `lessThan` is the comparison of the numbers. -/
theorem sltComparesUnsigned : Obligations.SltComparesUnsigned := fun a b c s =>
  ⟨decode_wordRRR (f := 4) rfl, exec_effect_of_writeReg_advance (exec_slt s a b c) rfl⟩

end Sys2Proof.Machine

/-! SUPPORT. The statements about immediate arithmetic (spec/42_alu_immediate.md R90, R91). Both instructions write one
register and advance, so their frame is `exec_effect_of_writeReg_advance`. What they add is the meaning of the operand:
the sign-extended immediate, as a number, is the signed immediate modulo 65536 (`sext16_toNat_eq_emod`). -/

namespace Sys2Proof

/-! ### Words of format RRI by their fields, and the encoder's words (R53) -/

theorem encodeRRI_toNat (k : BitVec 3) (a b : RegIdx) (imm : BitVec 7) :
    (encodeRRI k a b imm).toNat = k.toNat * 8192 + a.val * 1024 + b.val * 128 + imm.toNat := by
  simp only [encodeRRI, toNat_append_eq_add, BitVec.toNat_ofFin]
  omega

theorem wordRRI_eq_encodeRRI (k : BitVec 3) (a b : RegIdx) (imm : BitVec 7) :
    Machine.wordRRI k.toNat a b imm = encodeRRI k a b imm := by
  rw [Machine.wordRRI, ← encodeRRI_toNat, BitVec.ofNat_toNat, BitVec.setWidth_eq]

/-- The word of an instruction's fields decodes to the instruction, if the encoder writes these fields. -/
theorem decode_wordRRI {i : Instr} {k : BitVec 3} {a b : RegIdx} {imm : BitVec 7} (h : encode i = encodeRRI k a b imm) :
    decode (Machine.wordRRI k.toNat a b imm) = i := by
  rw [wordRRI_eq_encodeRRI, ← h, decodeInvertsEncode]

/-! ### The extended immediate as a number 0 to 65535 (R56, R91) -/

/-- A negative immediate is a very large number: its signed value plus 65536. -/
theorem sext16_toNat_eq_emod (imm : BitVec 7) : ((sext16 imm).toNat : Int) = imm.toInt % 65536 := by
  rw [← sext16_toInt, BitVec.toInt_eq_toNat_cond]
  omega

end Sys2Proof

namespace Sys2Proof.Machine

/-! ### The values computed from the signed immediate -/

theorem add_sext16_eq_ofInt_mod (x : Word) (imm : BitVec 7) :
    x + sext16 imm = BitVec.ofInt 16 (((x.toNat : Int) + imm.toInt) % 65536) := by
  have hext := sext16_toNat_eq_emod imm
  apply BitVec.eq_of_toNat_eq
  rw [BitVec.toNat_add, BitVec.toNat_ofInt]
  omega

theorem lessThan_sext16 (x : Word) (imm : BitVec 7) :
    lessThan x (sext16 imm) = if (x.toNat : Int) < imm.toInt % 65536 then 1 else 0 := by
  simp only [lessThan, ← sext16_toNat_eq_emod, Int.ofNat_lt]

/-! ### What each of the two answers -/

section
variable (s : State) (a b : RegIdx) (imm : BitVec 7)

theorem exec_addi : exec (.addi a b imm) s = .next (s.writeReg b (s.reg a + sext16 imm)).advance := rfl
theorem exec_slti : exec (.slti a b imm) s = .next (s.writeReg b (lessThan (s.reg a) (sext16 imm))).advance := rfl

end

/-! ### The statements about immediate arithmetic, settled -/

/-- Settles O39: adding the extended Word adds the signed immediate, modulo 65536. -/
theorem addiAddsTheSignedImmediate : Obligations.AddiAddsTheSignedImmediate := by
  intro a b imm s
  rw [← add_sext16_eq_ofInt_mod]
  exact ⟨decode_wordRRI (k := 1) rfl, exec_effect_of_writeReg_advance (exec_addi s a b imm) rfl⟩

/-- Settles O40: the comparison is with the extended Word as a number, which is the signed immediate modulo 65536. -/
theorem sltiComparesTheExtendedImmediateUnsigned : Obligations.SltiComparesTheExtendedImmediateUnsigned := by
  intro a b imm s
  rw [← lessThan_sext16]
  exact ⟨decode_wordRRI (k := 7) rfl, exec_effect_of_writeReg_advance (exec_slti s a b imm) rfl⟩

end Sys2Proof.Machine

/-! SUPPORT. The statements about control transfer (spec/43_control_transfer.md R95 to R98, R100). The four
instructions compute a next-PC and hand it to the halt test; `jal` writes a register before it. What they share is said
once, in `exec_effect_of_writeReg_endStep`: a transfer ends at its reduced next-PC and changes nothing but the register
it writes. What each adds is its next-PC modulo 8192. -/

namespace Sys2Proof

/-! ### The words of the transfers decode to them (R54, R61) -/

theorem encodeJ_toNat (k : BitVec 3) (target : Addr) : (encodeJ k target).toNat = k.toNat * 8192 + target.toNat :=
  toNat_append_eq_add k target

theorem wordJ_eq_encodeJ (k : BitVec 3) (target : Addr) : Machine.wordJ k.toNat target = encodeJ k target := by
  rw [Machine.wordJ, ← encodeJ_toNat, BitVec.ofNat_toNat, BitVec.setWidth_eq]

/-- The word of an instruction's fields decodes to the instruction, if the encoder writes these fields. -/
theorem decode_wordJ {i : Instr} {k : BitVec 3} {target : Addr} (h : encode i = encodeJ k target) :
    decode (Machine.wordJ k.toNat target) = i := by
  rw [wordJ_eq_encodeJ, ← h, decodeInvertsEncode]

/-- The encoder writes zeros in the ignored fields, the decoder takes any values there (R61, D7). -/
theorem decode_encodeRRR_jr (a b c : RegIdx) : decode (encodeRRR a b c 8) = .jr a := by
  have hrow : (fields (encodeRRR a b c 8)).InRow .jr := ⟨encodeRRR_cls a b c 8, fun _ => encodeRRR_func a b c 8⟩
  rw [decode_of_inRow hrow, Op.instr, encodeRRR_rA]

end Sys2Proof

namespace Sys2Proof.Machine

/-! ### The next-PC of each transfer, reduced modulo 8192 (R76) -/

theorem regTarget_reduced_toNat (v : Word) : ((regTarget v).setWidth 13).toNat = v.toNat % 8192 :=
  ((regTarget_reduced_eq_iff v _).mp rfl).symm

theorem State.pcPlusOne_reduced_toNat (s : State) : (s.pcPlusOne.setWidth 13).toNat = (s.pc.toNat + 1) % 8192 := by
  rw [BitVec.toNat_setWidth, State.pcPlusOne_toNat]

theorem State.pcPlusOne_eq_ofNat (s : State) : s.pcPlusOne = BitVec.ofNat 16 (s.pc.toNat + 1) := by
  rw [← State.pcPlusOne_toNat, BitVec.ofNat_toNat, BitVec.setWidth_eq]

/-- Arithmetic modulo 65536 loses nothing modulo 8192, so the displacement counts with its sign (R98). -/
theorem State.branchTarget_reduced_toNat (s : State) (imm : BitVec 7) :
    ((s.branchTarget imm).setWidth 13).toNat = (((s.pc.toNat : Int) + 1 + imm.toInt) % 8192).toNat := by
  have hext := sext16_toNat_eq_emod imm
  rw [State.branchTarget, BitVec.toNat_setWidth, BitVec.toNat_add, State.pcPlusOne_toNat]
  omega

/-! ### An instruction that may write one register and ends with a next-PC -/

section
variable {s : State} {i : Instr} {n : Word} {target : Nat}

/-- Ending a step from a state with the same `pc` and `run` is ending it at the reduced next-PC (R76). -/
theorem endsAt_endStep {u : State} (hpc : u.pc = s.pc) (hrun : u.run = s.run)
    (htarget : (n.setWidth 13).toNat = target) : EndsAt s (u.endStep n) target := by
  subst htarget
  rw [EndsAt, State.endStep_pc, State.endStep_run, hpc, hrun]
  by_cases hself : n.setWidth 13 = s.pc
  · rw [if_pos hself, if_pos (congrArg BitVec.toNat hself)]
    exact ⟨hself, rfl⟩
  · rw [if_neg hself, if_neg (mt BitVec.eq_of_toNat_eq hself)]
    exact ⟨rfl, rfl⟩

/-- Common to the instructions that hand a next-PC to the halt test: where they end, what they write, and that they
change nothing else (R63, R76, R134). -/
theorem exec_effect_of_writeReg_endStep {d : RegIdx} {v : Word}
    (hexec : execState i s = (s.writeReg d v).endStep n) (hcache : (controlSignals i).cache = .none)
    (htarget : (n.setWidth 13).toNat = target) :
    ∃ t, exec i s = .next t ∧ EndsAt s t target ∧ RegUpdate s t d v ∧
      SameMemory s t ∧ SameCache s t ∧ NoEvents i s ∧ SameControl s t := by
  have hreg : RegUpdate s ((s.writeReg d v).endStep n) d v := by
    simpa only [RegUpdate, State.reg_endStep] using s.writeReg_regUpdate d v
  refine ⟨_, exec_next_iff.mpr hexec.symm, endsAt_endStep rfl rfl htarget, hreg, fun k => ?_, ?_,
    s.eventsOf_eq_nil (noMemoryAccess_of_cache_none hcache), ?_⟩
  · rw [State.endStep_mem, State.writeReg_mem]
  · rw [SameCache, State.endStep_cache, State.writeReg_cache]
  · simp [SameControl]

/-- A write to register 0 changes no register (R12, R13). -/
theorem RegUpdate.sameRegs {t : State} {v : Word} (h : RegUpdate s t 0 v) : SameRegs s t := by
  obtain ⟨-, hother⟩ := h
  intro r
  by_cases hr : r = 0
  · rw [hr, State.reg_zero, State.reg_zero]
  · exact hother r hr

/-- A transfer without a link: as if it wrote register 0. -/
theorem exec_effect_of_endStep (hexec : execState i s = s.endStep n) (hcache : (controlSignals i).cache = .none)
    (htarget : (n.setWidth 13).toNat = target) :
    ∃ t, exec i s = .next t ∧ EndsAt s t target ∧ SameRegs s t ∧
      SameMemory s t ∧ SameCache s t ∧ NoEvents i s ∧ SameControl s t := by
  have hwrite : execState i s = (s.writeReg 0 0).endStep n := hexec
  obtain ⟨t, ht, hends, hreg, hrest⟩ := exec_effect_of_writeReg_endStep hwrite hcache htarget
  exact ⟨t, ht, hends, hreg.sameRegs, hrest⟩

end

/-! ### Call and return (R96, R97) -/

/-- The link of `jal` is `pc + 1`, also where it halts (D13). -/
theorem reg_execState_jal (s : State) (target : Addr) : (execState (.jal target) s).reg 7 = s.pcPlusOne := by
  rw [execState_jal, State.reg_endStep]
  exact (s.writeReg_regUpdate Config.linkReg s.pcPlusOne).1

/-- `jr` leaves `pc` at the register modulo 8192, whether or not it halts. -/
theorem pc_execState_jr (s : State) (a : RegIdx) : (execState (.jr a) s).pc.toNat = (s.reg a).toNat % 8192 := by
  rw [execState_jr, State.endStep_pc, regTarget_reduced_toNat]

/-! ### The statements about control transfer, settled -/

/-- Settles O31: the link is `pc + 1` as an integer, and `jr` reduces it modulo 8192. -/
theorem aSubroutineReturnsAfterTheCall : Obligations.ASubroutineReturnsAfterTheCall := by
  intro s t u target hcall hlink
  obtain rfl := exec_next_iff.mp hcall
  refine ⟨_, exec_eq_next (.jr 7) u, ?_⟩
  rw [pc_execState_jr, hlink, reg_execState_jal, State.pcPlusOne_toNat]

/-- Settles O41: the absolute target is an address already. -/
theorem jumpGoesToItsTarget : Obligations.JumpGoesToItsTarget := fun target s =>
  ⟨decode_wordJ (k := 2) rfl,
    exec_effect_of_endStep (execState_j s target) rfl (congrArg BitVec.toNat (absTarget_reduced target))⟩

/-- Settles O42: the register written before the halt test is the link register. -/
theorem jumpAndLinkLinksAndGoes : Obligations.JumpAndLinkLinksAndGoes := by
  intro target s
  rw [← State.pcPlusOne_eq_ofNat]
  exact ⟨decode_wordJ (k := 3) rfl,
    exec_effect_of_writeReg_endStep (execState_jal s target) rfl (congrArg BitVec.toNat (absTarget_reduced target))⟩

/-- Settles O43: the register target is the register modulo 8192, and `decode_encodeRRR_jr` ignores `rB` and `rC`. -/
theorem jumpRegisterGoesToTheLowBits : Obligations.JumpRegisterGoesToTheLowBits := by
  intro a b c s
  have hword : wordRRR a b c 8 = encodeRRR a b c 8 := wordRRR_eq_encodeRRR a b c 8
  rw [hword]
  exact ⟨decode_encodeRRR_jr a b c, exec_effect_of_endStep (execState_jr s a) rfl (regTarget_reduced_toNat (s.reg a))⟩

/-- Settles O44: by whether the operands are equal, the next-PC is the branch target or `pc + 1`. -/
theorem branchGoesToTheRelativeTarget : Obligations.BranchGoesToTheRelativeTarget := by
  intro a b imm s
  refine ⟨decode_wordRRI (k := 6) rfl, exec_effect_of_endStep (execState_jeq s a b imm) rfl ?_⟩
  by_cases hab : s.reg a = s.reg b
  · rw [if_pos hab, if_pos hab, State.branchTarget_reduced_toNat]
  · rw [if_neg hab, if_neg hab, State.pcPlusOne_reduced_toNat]

end Sys2Proof.Machine

/-! SUPPORT. The statements about loads and stores (spec/44_load_store.md R105 to R107). Both instructions access one
cell and the hierarchy at the effective address and then advance; the end of such a step is said once, in
`endsInSequence_advance`. -/

namespace Sys2Proof.Machine

/-- Arithmetic modulo 65536 loses nothing modulo 8192, so the displacement counts with its sign (R105). -/
theorem State.ea_toNat (s : State) (a : RegIdx) (imm : BitVec 7) :
    ((s.ea a imm).toNat : Int) = (((s.reg a).toNat : Int) + imm.toInt) % 8192 := by
  have hext := sext16_toNat_eq_emod imm
  rw [State.ea, BitVec.toNat_setWidth, BitVec.toNat_add]
  omega

/-- Advancing from a state with the same `pc` and `run` goes on at `pc + 1` (R74, R76). -/
theorem endsInSequence_advance {s u : State} (hpc : u.pc = s.pc) (hrun : u.run = s.run) :
    EndsInSequence s u.advance := by
  refine ⟨?_, (State.advance_run u).trans hrun⟩
  rw [State.advance_pc, hpc, BitVec.toNat_add]
  rfl

/-! ### The statements about loads and stores, settled -/

/-- Settles O45: the effective address is the sum of the base and the extended displacement, reduced modulo 8192. -/
theorem effectiveAddressIsBasePlusDisplacement : Obligations.EffectiveAddressIsBasePlusDisplacement :=
  fun a imm s => s.ea_toNat a imm

/-- Settles O46: `lw` writes its register and advances from a state in which the cache alone changed. -/
theorem loadReadsItsCell : Obligations.LoadReadsItsCell := by
  intro a b imm s
  have hreg : RegUpdate s (execState (.lw a b imm) s) b (memRead s.mem (s.ea a imm)) :=
    regUpdate_writeReg_advance (s.cacheLoad (s.ea a imm)) b _
  refine ⟨decode_wordRRI (k := 4) rfl, _, exec_eq_next _ s, hreg, ?_⟩
  rw [execState_lw]
  exact ⟨endsInSequence_advance rfl rfl, fun k => by simp, by simp [SameControl], by simp, s.eventsOf_lw a b imm⟩

/-- Settles O47: memory changes by one cell write, whose frame is `memWrite_frame`, and no register is written. -/
theorem storeWritesItsCellOnly : Obligations.StoreWritesItsCellOnly := by
  intro a b imm s
  refine ⟨decode_wordRRI (k := 5) rfl, fun hwf => ⟨_, exec_eq_next _ s, memRead_execState_sw hwf a b imm,
    fun k h0 h1 => ?_, execState_mem_wf hwf _,
    fun r => execState_reg_of_not_written (by simp [controlSignals]) s, ?_⟩⟩
  · rw [execState_sw, State.advance_mem]
    exact memWrite_frame s.mem _ _ h0 h1
  · rw [execState_sw]
    exact ⟨endsInSequence_advance rfl rfl, by simp [SameControl], by simp, s.eventsOf_sw a b imm⟩

end Sys2Proof.Machine

/-! SUPPORT. The statements about the address decomposer (spec/45_address_decomposer.md R114 to R116). The division
identity is said once for each of the two divisions; the tag is also one division, by `block * rows`. -/

namespace Sys2Proof.Machine

/-- The identity of the division by `rows` (R111, R112). -/
theorem decompose_tag_mul_add_row (a : Addr) (block rows : Nat) :
    (decompose a block rows).tag * rows + (decompose a block rows).row = (decompose a block rows).blk :=
  Nat.div_add_mod' _ _

/-- The identity of the division by `block` (R111, R113). -/
theorem decompose_blk_mul_add_offset (a : Addr) (block rows : Nat) :
    (decompose a block rows).blk * block + (decompose a block rows).offset = a.toNat :=
  Nat.div_add_mod' _ _

/-- R114: the address from tag, row and offset. -/
theorem decompose_recompose (a : Addr) (block rows : Nat) :
    ((decompose a block rows).tag * rows + (decompose a block rows).row) * block + (decompose a block rows).offset =
      a.toNat := by
  rw [decompose_tag_mul_add_row, decompose_blk_mul_add_offset]

/-- R112's consequence: row and tag together name a block. -/
theorem decompose_row_tag_eq_iff (a b : Addr) (block rows : Nat) :
    ((decompose a block rows).row = (decompose b block rows).row ∧
      (decompose a block rows).tag = (decompose b block rows).tag) ↔
      (decompose a block rows).blk = (decompose b block rows).blk := by
  constructor
  · rintro ⟨hrow, htag⟩
    rw [← decompose_tag_mul_add_row a, ← decompose_tag_mul_add_row b, hrow, htag]
  · intro hblk
    exact ⟨congrArg (· % rows) hblk, congrArg (· / rows) hblk⟩

/-- R114: for one geometry the decomposition is injective. -/
theorem decompose_injective (block rows : Nat) : Function.Injective (decompose · block rows) := by
  intro a b (h : decompose a block rows = decompose b block rows)
  apply BitVec.eq_of_toNat_eq
  rw [← decompose_recompose a block rows, ← decompose_recompose b block rows, h]

theorem decompose_tag_eq_div_mul (a : Addr) (block rows : Nat) :
    (decompose a block rows).tag = a.toNat / (block * rows) :=
  Nat.div_div_eq_div_mul _ _ _

/-- With one row the tag is the whole block id (R115). -/
theorem decompose_one_row (a : Addr) (block : Nat) :
    (decompose a block 1).row = 0 ∧ (decompose a block 1).tag = (decompose a block 1).blk :=
  ⟨Nat.mod_one _, Nat.div_one _⟩

/-! ### The statements about the address decomposer, settled -/

/-- Settles O50: the two division identities give the address back, and so the injectivity. -/
theorem decompositionLosesNothing : Obligations.DecompositionLosesNothing := fun a b block rows _ _ =>
  ⟨(decompose_recompose a block rows).symm, decompose_row_tag_eq_iff a b block rows,
    fun h => decompose_injective block rows h⟩

/-- Settles O51: an address is below 8192, quotients are monotone and remainders lie below the divisor. -/
theorem decompositionStaysInRange : Obligations.DecompositionStaysInRange := by
  intro a block rows hblock hrows
  have ha : a.toNat < 8192 := a.isLt
  refine ⟨Nat.div_le_div_right (Nat.le_of_lt_succ ha), Nat.le_sub_one_of_lt (Nat.mod_lt _ hrows), ?_,
    Nat.le_sub_one_of_lt (Nat.mod_lt _ hblock), fun hsize => ?_, fun hsize => ?_, ?_⟩
  · rw [decompose_tag_eq_div_mul]
    exact Nat.div_le_div_right (Nat.le_of_lt_succ ha)
  · rw [decompose_tag_eq_div_mul]
    exact Nat.div_eq_of_lt (ha.trans_le hsize)
  · exact Nat.div_eq_of_lt (ha.trans_le hsize)
  · rintro rfl
    exact decompose_one_row a block

/-- Settles O52: a right shift divides by a power of two, and taking low bits is the remainder by one. -/
theorem powersOfTwoGiveBitSlices : Obligations.PowersOfTwoGiveBitSlices := by
  intro a b r
  have htag : (decompose a (2 ^ b) (2 ^ r)).tag = (a >>> (b + r)).toNat := by
    rw [decompose_tag_eq_div_mul, ← Nat.pow_add, BitVec.toNat_ushiftRight, Nat.shiftRight_eq_div_pow]
  rw [← htag, BitVec.toNat_ushiftRight, BitVec.extractLsb'_toNat, BitVec.extractLsb'_toNat,
    Nat.shiftRight_zero, Nat.shiftRight_eq_div_pow]
  rfl

end Sys2Proof.Machine

/-! SUPPORT. The statements about the cache hierarchy (spec/46_cache_hierarchy.md). The model's operations on one set and
on one level are tied to the statements' own words for them (`LowestMatch`, `LowestOldest`, `TouchedAt`, `InstalledAt`,
`OneSetReplaced`, `record`), each once; the resolutions over the hierarchy get one equation for each number of levels.
Then the history of a run (R136) and the store that duplicates a tag (R129). The statements are settled at the end. -/

namespace Sys2Proof

/-! ### Legal geometries (R121) -/

theorem Geometry.legal_iff (g : Geometry) :
    g.legal = true ↔ 0 < g.size ∧ 0 < g.assoc ∧ 0 < g.block ∧ g.assoc * g.block ∣ g.size := by
  simp [Geometry.legal, Nat.dvd_iff_mod_eq_zero, and_assoc]

/-- The rows make up the size, since a row's cells divide it. -/
theorem Geometry.rows_mul_of_legal {g : Geometry} (h : g.legal = true) : g.rows * (g.assoc * g.block) = g.size := by
  obtain ⟨-, -, -, hdvd⟩ := g.legal_iff.mp h
  exact Nat.div_mul_cancel hdvd

/-- A legal level has a row: its size is not 0. -/
theorem Geometry.rows_pos_of_legal {g : Geometry} (h : g.legal = true) : 0 < g.rows := by
  obtain ⟨hsize, -⟩ := g.legal_iff.mp h
  rw [← Geometry.rows_mul_of_legal h] at hsize
  exact Nat.pos_of_mul_pos_right hsize

end Sys2Proof

namespace Sys2Proof.Machine

/-! ### One set, in the words of the statements (R123 to R127) -/

/-- A hit is at the lowest match (R123, D17). -/
theorem lowestMatch_of_lookup {S : List Line} {tag i : Nat} (h : lookup S tag = some i) : LowestMatch S tag i := by
  obtain ⟨hi, hmatch, hlowest⟩ := (lookup_eq_some_iff S tag i).mp h
  refine ⟨⟨_, List.getElem?_eq_getElem hi, hmatch⟩, fun j l hj hl => ?_⟩
  obtain ⟨-, rfl⟩ := List.getElem?_eq_some_iff.mp hl
  exact hlowest j hj

/-- The victim is the lowest line of largest recency (R124, D16). -/
theorem lowestOldest_victim {S : List Line} (hS : S ≠ []) : LowestOldest S (victim S) := by
  refine ⟨_, List.getElem?_eq_getElem (victim_lt hS), victim_maximal hS, fun j m hj hm => ?_⟩
  obtain ⟨-, rfl⟩ := List.getElem?_eq_some_iff.mp hm
  exact victim_lowest hS j hj

theorem touchedAt_touch (S : List Line) (i : Nat) : TouchedAt S (touch S i) i :=
  fun _ => List.getElem?_mapIdx

theorem installedAt_installTag (S : List Line) (tag : Nat) : InstalledAt S (installTag S tag) (victim S) tag := by
  intro j
  by_cases hj : j < S.length
  · rw [List.getElem?_eq_getElem (by simpa using hj), installTag_getElem, List.getElem?_eq_getElem hj, Option.map_some]
  · rw [List.getElem?_eq_none (by simpa using hj), List.getElem?_eq_none (by simpa using hj), Option.map_none]

/-! ### The victim under R24 (R124) -/

/-- While a line of the set is invalid the victim is: an invalid line is older than every valid one. -/
theorem RecencyInv.victim_invalid {n : Nat} {S : List Line} (h : RecencyInv n S) (hS : S ≠ []) {x : Line} (hx : x ∈ S)
    (hinvalid : x.valid = false) : (S[victim S]'(victim_lt hS)).valid = false := by
  by_contra hvalid
  have hyounger := h.valid _ (List.getElem_mem (victim_lt hS)) (by simpa using hvalid)
  have hmax := victim_maximal hS x hx
  rw [h.invalid x hx hinvalid] at hmax
  omega

/-- In a full set every other line is younger than the victim: no two valid lines have one recency. -/
theorem RecencyInv.recency_lt_victim {n j : Nat} {S : List Line} (h : RecencyInv n S) (hS : S ≠ [])
    (hfull : ∀ x ∈ S, x.valid = true) (hj : j < S.length) (hne : j ≠ victim S) :
    S[j].recency < (S[victim S]'(victim_lt hS)).recency := by
  have hmax := victim_maximal hS S[j] (List.getElem_mem hj)
  have hdiff := List.pairwise_iff_getElem.mp h.different
  have hvj := hfull S[j] (List.getElem_mem hj)
  have hvv := hfull _ (List.getElem_mem (victim_lt hS))
  rcases Nat.lt_or_gt_of_ne hne with hlt | hgt
  · exact lt_of_le_of_ne hmax (hdiff j _ hj (victim_lt hS) hlt hvj hvv)
  · exact lt_of_le_of_ne hmax (hdiff _ j (victim_lt hS) hj hgt hvv hvj).symm

/-! ### One level (R125 to R127) -/

section
variable {l : Level} {S : List Line}

theorem Level.setAt_eq {row : Nat} (h : l.sets[row]? = some S) : l.setAt row = S := by
  rw [Level.setAt, List.getD_eq_getElem?_getD, h, Option.getD_some]

theorem oneSetReplaced_withSet {row : Nat} (h : l.sets[row]? = some S) (S' : List Line) :
    OneSetReplaced l (l.withSet row S') row S' := by
  obtain ⟨hrow, -⟩ := List.getElem?_eq_some_iff.mp h
  exact ⟨rfl, List.getElem?_set_self hrow, fun r hr => List.getElem?_set_ne hr.symm⟩

/-- A load resolution of a level is one of the addressed set (R111, R112, R126). -/
theorem Level.resolveLoad_eq {addr : Addr} (h : l.sets[l.rowOf addr]? = some S) : l.resolveLoad addr =
    ((loadSet S (l.tagOf addr)).1, l.withSet (l.rowOf addr) (loadSet S (l.tagOf addr)).2) := by
  rw [← Level.setAt_eq h]
  rfl

/-- A store resolution of a level is one of the addressed set (R111, R112, R127). -/
theorem Level.resolveStore_eq {addr : Addr} (h : l.sets[l.rowOf addr]? = some S) :
    l.resolveStore addr = l.withSet (l.rowOf addr) (installTag S (l.tagOf addr)) := by
  rw [← Level.setAt_eq h]
  rfl

end

/-! ### The hierarchy, by its number of levels (R130, R131, R133) -/

section
variable (l1 l2 : Level) (pc addr : Addr)

theorem Hierarchy.load_none : Hierarchy.none.load pc addr = (.none, []) := rfl

theorem Hierarchy.load_one : (Hierarchy.one l1).load pc addr =
    (.one (l1.resolveLoad addr).2, [record l1 .L1 (l1.resolveLoad addr).1 pc addr]) := rfl

theorem Hierarchy.load_two_of_hit {l1 : Level} {addr : Addr} (h : (l1.resolveLoad addr).1 = .hit) :
    (Hierarchy.two l1 l2).load pc addr = (.two (l1.resolveLoad addr).2 l2, [record l1 .L1 .hit pc addr]) := by
  rw [← h, Hierarchy.load, if_neg (by simp [h])]
  rfl

theorem Hierarchy.load_two_of_miss {l1 : Level} {addr : Addr} (h : (l1.resolveLoad addr).1 = .miss) :
    (Hierarchy.two l1 l2).load pc addr = (.two (l1.resolveLoad addr).2 (l2.resolveLoad addr).2,
      [record l1 .L1 .miss pc addr, record l2 .L2 (l2.resolveLoad addr).1 pc addr]) := by
  rw [← h, Hierarchy.load, if_pos h]
  rfl

theorem Hierarchy.store_none : Hierarchy.none.store pc addr = (.none, []) := rfl

theorem Hierarchy.store_one : (Hierarchy.one l1).store pc addr =
    (.one (l1.resolveStore addr), [record l1 .L1 .sw pc addr]) := rfl

theorem Hierarchy.store_two : (Hierarchy.two l1 l2).store pc addr =
    (.two (l1.resolveStore addr) (l2.resolveStore addr),
      [record l1 .L1 .sw pc addr, record l2 .L2 .sw pc addr]) := rfl

end

/-- Without a cache level no instruction emits (R134). -/
theorem State.eventsOf_eq_nil_of_cache_none {s : State} (h : s.cache = .none) (i : Instr) : s.eventsOf i = [] := by
  cases i with
  | lw a b imm => rw [State.eventsOf_lw, h, Hierarchy.load_none]
  | sw a b imm => rw [State.eventsOf_sw, h, Hierarchy.store_none]
  | _ => rfl

theorem execState_lw_cache (a b : RegIdx) (imm : BitVec 7) (s : State) :
    (execState (.lw a b imm) s).cache = (s.cache.load s.pc (s.ea a imm)).1 := by
  simp [execState_lw]

theorem execState_sw_cache (a b : RegIdx) (imm : BitVec 7) (s : State) :
    (execState (.sw a b imm) s).cache = (s.cache.store s.pc (s.ea a imm)).1 := by
  simp [execState_sw]

/-! ### An illegal geometry has no reset and no step (R121) -/

theorem State.resetWith_of_illegal {cfg : CoreConfig} (h : cfg.cache.legal = false) (image : List Word) :
    State.resetWith cfg image = .error .illegalConfiguration :=
  if_pos h

theorem step_of_illegal {s : State} (hr : s.run = .running) (h : s.cache.config.legal = false) :
    step s = .refused .illegalConfiguration := by
  simp [step, hr, h]

/-! ### The history of a run (R26, R136) -/

/-- A run of one more step that answers a next state made its first step. -/
theorem exists_step_of_run_succ (M : Host.Core) {n : Nat} {s t : M.State} (h : M.run (n + 1) s = .next t) :
    ∃ u, M.step s = .next u ∧ M.run n u = .next t := by
  rw [Host.Core.run] at h
  cases hstep : M.step s with
  | next u => exact ⟨u, rfl, by rwa [hstep] at h⟩
  | fault r | refused r => simp [hstep] at h

/-- A history of one more step is that step and then the history. -/
theorem History.run_succ {h h' : History} (hstep : h.step = .next h') (n : Nat) :
    History.run (n + 1) h = History.run n h' := by
  rw [History.run, hstep]

/-- The history of a run follows the machine from any log and appends to it the same records (R136). -/
theorem History.exists_run_append (n : Nat) {s t : State} (h : core.run n s = .next t) :
    ∃ new : List Event, ∀ log : List Event,
      History.run n { state := s, log := log } = .next { state := t, log := log ++ new } := by
  induction n generalizing s with
  | zero =>
    obtain rfl : s = t := Host.Outcome.next.inj h
    exact ⟨[], fun log => by rw [History.run, List.append_nil]⟩
  | succ n ih =>
    obtain ⟨u, hstep, hrun⟩ := exists_step_of_run_succ core h
    obtain ⟨new, hnew⟩ := ih hrun
    refine ⟨s.stepEvents ++ new, fun log => ?_⟩
    rw [History.run_succ (History.step_eq_next hstep log), hnew, List.append_assoc]

/-! ### A load and then a store of one cell (R129, C1)

The counterexample to `uniqueTags`: one set of two lines. The load puts the tag of cell 0 in the first line; the store
of the same cell makes no lookup and puts it in the second, which is still invalid. -/

/-- One level with one row of two lines of one cell. -/
def oneRowOfTwo : CoreConfig := { cache := .one { size := 2, assoc := 2, block := 1 }, quirkNops := [] }

/-- `lw $1,0($0)` and `sw $1,0($0)`. -/
def loadThenStore : List Word := [encode (.lw 0 1 0), encode (.sw 0 1 0)]

def beforeTheLoad : State :=
  { State.reset with
    mem := loadImage [] 0 loadThenStore, cache := Hierarchy.reset oneRowOfTwo.cache,
    quirkNops := oneRowOfTwo.quirkNops }

def afterTheLoad : State := execState (.lw 0 1 0) beforeTheLoad

def afterTheStore : State := execState (.sw 0 1 0) afterTheLoad

theorem decode_beforeTheLoad : decode beforeTheLoad.fetchWord = .lw 0 1 0 := by decide

theorem decode_afterTheLoad : decode afterTheLoad.fetchWord = .sw 0 1 0 := by decide

theorem step_beforeTheLoad : step beforeTheLoad = .next afterTheLoad := by
  rw [step_eq_next_execState rfl rfl, decode_beforeTheLoad, afterTheLoad]

theorem step_afterTheLoad : step afterTheLoad = .next afterTheStore := by
  rw [step_eq_next_execState (by decide) (by decide), decode_afterTheLoad, afterTheStore]

/-- The three invariants hold at the reset, and the load's step keeps them. -/
theorem invariants_afterTheLoad :
    afterTheLoad.Inv ∧ afterTheLoad.cache.RecencyInv ∧ afterTheLoad.cache.UniqueTags := by
  have hreset : State.resetWith oneRowOfTwo loadThenStore = .ok beforeTheLoad := rfl
  obtain ⟨hinv, hrec, huniq⟩ := everyResetSatisfiesTheInvariants _ _ _ hreset
  have hload : ∀ a b imm, decode beforeTheLoad.fetchWord ≠ .sw a b imm := by
    rw [decode_beforeTheLoad]
    exact fun _ _ _ => nofun
  exact ⟨everyStepKeepsTheInvariant _ _ hinv step_beforeTheLoad,
    everyStepKeepsTheRecencyInvariant _ _ hinv.shaped hrec step_beforeTheLoad,
    stepsOtherThanStoresKeepTagsUnique _ _ huniq hload step_beforeTheLoad⟩

/-- Tag 0 stands in both lines. -/
theorem cache_afterTheStore : afterTheStore.cache =
    .one { geom := { size := 2, assoc := 2, block := 1 }, sets := [[⟨true, 0, 1⟩, ⟨true, 0, 0⟩]] } := by decide

theorem not_uniqueTags_afterTheStore : ¬ afterTheStore.cache.UniqueTags := by
  intro h
  rw [cache_afterTheStore] at h
  have hset : uniqueTags [⟨true, 0, 1⟩, ⟨true, 0, 0⟩] := h _ List.mem_cons_self _ List.mem_cons_self
  exact List.rel_of_pairwise_cons hset List.mem_cons_self rfl rfl rfl

/-! ### The statements about the cache hierarchy, settled -/

/-- Settles O23: the first clause is `History.step_eq_next`, the second its induction over the run. -/
theorem eventOutputIsWriteOnly : Obligations.EventOutputIsWriteOnly :=
  ⟨fun _ _ log h => History.step_eq_next h log, fun n _ _ h => History.exists_run_append n h⟩

/-- Settles O24: the records of `CacheLoad` and `CacheStore`, by the number of levels. -/
theorem eventsFollowTheTable : Obligations.EventsFollowTheTable := by
  intro i s
  refine ⟨s.eventsOf_eq_nil, fun hc => State.eventsOf_eq_nil_of_cache_none hc i, ?_, ?_, ?_, ?_⟩
  · rintro a b imm rfl l1 hc
    exact ⟨_, l1.resolveLoad_kind _, by rw [State.eventsOf_lw, hc, Hierarchy.load_one]⟩
  · rintro a b imm rfl l1 l2 hc
    rw [State.eventsOf_lw, hc]
    rcases l1.resolveLoad_kind (s.ea a imm) with hk | hk
    · exact .inl (by rw [Hierarchy.load_two_of_hit _ _ hk])
    · exact .inr ⟨_, l2.resolveLoad_kind _, by rw [Hierarchy.load_two_of_miss _ _ hk]⟩
  · rintro a b imm rfl l1 hc
    rw [State.eventsOf_sw, hc, Hierarchy.store_one]
  · rintro a b imm rfl l1 l2 hc
    rw [State.eventsOf_sw, hc, Hierarchy.store_two]

/-- Settles O53: a lookup that finds a line touches it; one that finds none installs in the victim. -/
theorem loadResolutionHitsOrInstalls : Obligations.LoadResolutionHitsOrInstalls := by
  intro l addr S hrow hS
  rw [Level.resolveLoad_eq hrow]
  refine ⟨_, oneSetReplaced_withSet hrow _, ?_⟩
  rcases loadSet_cases S (l.tagOf addr) with ⟨i, hhit, e⟩ | ⟨hmiss, e⟩ <;> rw [e]
  · exact .inl ⟨i, lowestMatch_of_lookup hhit, rfl, touchedAt_touch S i⟩
  · exact .inr ⟨(lookup_eq_none_iff S _).mp hmiss, rfl, victim S, lowestOldest_victim hS, installedAt_installTag S _⟩

/-- Settles O54: the install of O53, without the lookup. -/
theorem storeResolutionAlwaysInstalls : Obligations.StoreResolutionAlwaysInstalls := by
  intro l addr S hrow hS
  rw [Level.resolveStore_eq hrow]
  exact ⟨_, victim S, oneSetReplaced_withSet hrow _, lowestOldest_victim hS, installedAt_installTag S _⟩

/-- Settles O57: under R24 an invalid line is older than every valid one, and valid lines differ in recency. -/
theorem victimIsFirstEmptyOrLeastRecent : Obligations.VictimIsFirstEmptyOrLeastRecent := by
  intro S hS
  refine ⟨lowestOldest_victim hS, fun n h => ⟨?_, ?_⟩⟩
  · rintro ⟨x, hx, hinvalid⟩
    refine ⟨⟨_, List.getElem?_eq_getElem _, h.victim_invalid hS hx hinvalid⟩, fun j y hj hy => ?_⟩
    obtain ⟨-, rfl⟩ := List.getElem?_eq_some_iff.mp hy
    exact h.valid_of_lt_victim hS hj
  · intro hfull j x y hne hx hy
    obtain ⟨hj, rfl⟩ := List.getElem?_eq_some_iff.mp hx
    obtain ⟨-, rfl⟩ := List.getElem?_eq_some_iff.mp hy
    exact h.recency_lt_victim hS hfull hj hne

/-- Settles O58: `RecencyInv.loadSet` and `RecencyInv.installTag`. -/
theorem oneResolutionCountsOneAccess : Obligations.OneResolutionCountsOneAccess :=
  fun _ tag _ hS h => ⟨h.loadSet hS tag, h.installTag hS tag⟩

/-- Settles O11: the legality of one geometry, and the two refusals. -/
theorem illegalGeometryIsRefused : Obligations.IllegalGeometryIsRefused :=
  ⟨Geometry.legal_iff, fun _ h => ⟨Geometry.rows_pos_of_legal h, Geometry.rows_mul_of_legal h⟩,
    fun _ image h => State.resetWith_of_illegal h image, fun _ hr h => step_of_illegal hr h⟩

/-- Settles O19: `afterTheLoad` is reached from reset, and its store puts tag 0 in a second line. -/
theorem aStoreCanDuplicateATag : Obligations.AStoreCanDuplicateATag := by
  obtain ⟨hinv, hrec, huniq⟩ := invariants_afterTheLoad
  exact ⟨afterTheLoad, afterTheStore, 0, 1, 0, hinv, hrec, huniq, by decide, decode_afterTheLoad, step_afterTheLoad,
    not_uniqueTags_afterTheStore⟩

/-- Settles O55, by the number of levels and the result at L1. -/
theorem loadConsultsL2OnlyAfterAnL1Miss : Obligations.LoadConsultsL2OnlyAfterAnL1Miss := by
  intro a b imm s t h
  obtain rfl := exec_next_iff.mp h
  rw [execState_lw_cache, State.eventsOf_lw]
  refine ⟨fun hc => ?_, fun l1 hc => ?_, fun l1 l2 hc => ?_⟩ <;> rw [hc]
  · exact ⟨rfl, rfl⟩
  · rw [Hierarchy.load_one]
    exact ⟨rfl, rfl⟩
  · rcases l1.resolveLoad_kind (s.ea a imm) with hk | hk
    · rw [Hierarchy.load_two_of_hit _ _ hk]
      exact .inl ⟨hk, rfl, rfl⟩
    · rw [Hierarchy.load_two_of_miss _ _ hk]
      exact .inr ⟨hk, rfl, rfl⟩

/-- Settles O56, by the number of levels. -/
theorem storeReachesEveryLevel : Obligations.StoreReachesEveryLevel := by
  intro a b imm s t h
  obtain rfl := exec_next_iff.mp h
  rw [execState_sw_cache, State.eventsOf_sw]
  refine ⟨fun hc => ?_, fun l1 hc => ?_, fun l1 l2 hc => ?_⟩ <;> rw [hc]
  · exact ⟨rfl, rfl⟩
  · rw [Hierarchy.store_one]
    exact ⟨rfl, rfl⟩
  · rw [Hierarchy.store_two]
    exact ⟨rfl, rfl⟩

end Sys2Proof.Machine

/-! SUPPORT. The statements about exceptions and the end of a run (spec/60_exceptions.md R140 to R145, R153, R155). The
ten unused function codes have one meaning (`execState_invalid`), so the rows of the two statements about them are taken
as one row for a code `f`, and each outcome is said once for every `f`. -/

namespace Sys2Proof.Machine

/-! ### The ten unused function codes (R140 to R144) -/

/-- The register fields of the word play no part (R140). -/
theorem decode_wordRRR_invalid (a b c : RegIdx) (f : InvalidFunc) :
    decode (wordRRR a b c f.code.toNat) = f.instr := by
  rw [wordRRR_eq_encodeRRR]
  exact (decode_eq_invalid_iff _ f).mpr ⟨encodeRRR_cls a b c f.code, encodeRRR_func a b c f.code⟩

section
variable {s : State} {f : InvalidFunc}

/-- Outside the quirk set the exception is taken (R140). -/
theorem exec_invalid_of_not_mem (h : f ∉ s.quirkNops) : exec f.instr s = .next (s.takeInvalidFunction f) := by
  rw [exec_eq_next, execState_invalid, if_neg h]

/-- In the quirk set the word advances and does nothing else (R142). -/
theorem exec_invalid_of_mem (h : f ∈ s.quirkNops) : exec f.instr s = .next s.advance := by
  rw [exec_eq_next, execState_invalid, if_pos h]

end

/-- An unused function code emits no record, in the quirk set or not (R134, R142). -/
theorem noEvents_invalid (s : State) (f : InvalidFunc) : NoEvents f.instr s :=
  s.eventsOf_eq_nil (noMemoryAccess_invalid f)

/-! ### The `observe` output (R153) -/

section
variable {s : State}

theorem State.observe_running (h : s.run = .running) : s.observe = none := if_pos h

theorem State.observe_stopped (h : s.run ≠ .running) : s.observe = some {
    pc := s.pc.setWidth 16
    regs := (List.range 8).map fun i => s.reg (Fin.ofNat 8 i)
    cells := (List.range 8192).map fun a => memRead s.mem (BitVec.ofNat 13 a) } := if_neg h

end

/-- A list of the values at 0, 1, ... has the value of a number in its place. -/
theorem getElem?_map_range {α : Type} (g : Nat → α) {n i : Nat} (h : i < n) :
    ((List.range n).map g)[i]? = some (g i) := by
  rw [List.getElem?_map, List.getElem?_range h, Option.map_some]

/-! ### The statements about exceptions and the end of a run, settled -/

/-- Settles O12: the instruction at `pc`, whatever it is, answers a next state. -/
theorem runningEngineHasANextStep : Obligations.RunningEngineHasANextStep :=
  fun _ hr hl => ⟨_, step_eq_next_execState hr hl⟩

/-- Settles O33: a register number and an address are the places of their values in the lists shown. -/
theorem portsShowTheFinalState : Obligations.PortsShowTheFinalState := by
  refine fun s => ⟨rfl, State.observe_running, fun hr => ⟨_, State.observe_stopped hr, ?_, ?_, fun r => ?_, ?_,
    fun a => ?_⟩⟩ <;> dsimp only
  · rw [BitVec.toNat_setWidth_of_le (by omega)]
  · rw [List.length_map, List.length_range]
  · rw [getElem?_map_range _ r.isLt, Fin.ofNat_val_eq_self]
  · rw [List.length_map, List.length_range]
  · rw [getElem?_map_range _ a.isLt, BitVec.ofNat_toNat, BitVec.setWidth_eq]

/-- Settles O48: `takeInvalidFunction` writes `run` and the fault record alone. -/
theorem unusedFunctionCodesFault : Obligations.UnusedFunctionCodesFault := by
  intro p hp a b c s
  obtain ⟨f, -, rfl⟩ : ∃ f ∈ InvalidFunc.all, (f.instr, f, f.code.toNat) = p := List.mem_map.mp hp
  exact ⟨decode_wordRRR_invalid a b c f, fun hf => ⟨s.takeInvalidFunction f, exec_invalid_of_not_mem hf, rfl,
    ⟨_, rfl, rfl, rfl, rfl⟩, rfl, fun _ => rfl, fun _ => rfl, rfl, noEvents_invalid s f, rfl⟩⟩

/-- Settles O49: `advance` moves `pc` alone, and never to itself. -/
theorem quirkFunctionCodesAreNoOps : Obligations.QuirkFunctionCodesAreNoOps := by
  intro p hp s hf
  obtain ⟨f, -, rfl⟩ : ∃ f ∈ InvalidFunc.all, (f.instr, f) = p := List.mem_map.mp hp
  exact ⟨s.advance, exec_invalid_of_mem hf, endsInSequence_advance rfl rfl, s.reg_advance,
    fun k => congrArg (·.readByte k) s.advance_mem, s.advance_cache, noEvents_invalid s f, s.advance_fault,
    s.advance_quirkNops⟩

end Sys2Proof.Machine
